-- ==== Sys2Proof/Word.lean ====
section
/-! DEFINITION. The widths of the core's data (00_scope.md R7, R10): every value is unsigned. -/

namespace Sys2Proof

/-- An 8-bit value: a general register, a timer, a byte of memory (R7). -/
abbrev Byte := BitVec 8

/-- A 16-bit value: an opcode, PC, I, a return address (R7). -/
abbrev Word := BitVec 16

/-- The number of a general register, 0..15 for V0..VF (R21). -/
abbrev RegIdx := Fin 16

/-- The flag register VF, `V[15]` (R22). -/
abbrev flagReg : RegIdx := 15

end Sys2Proof
end

