-- ==== Sys2Proof/Config.lean ====
section
/-! DEFINITION. What the source leaves open (00_scope.md R8): the contents of the font region, and the random byte of Cxkk.
The third parameter of R8, SCHEDULE, is a field of State (notes/assumptions/3.md). -/

namespace Sys2Proof

/-- FONT: the 80 bytes at 0x000..0x04F after construction and reset, 16 glyphs of 5 bytes (R8, R58). -/
abbrev Font := Vector Byte 80

namespace Config

/-- The free value of RNG (R8, R132): the byte of the k-th draw of Cxkk once no draw is listed in State.draws.
It has no body, so nothing can be proved about its value (notes/assumptions/2.md). -/
opaque randomByte : Nat → Byte

/-- PRESUMED (notes/assumptions/1.md): the default of the parameter FONT, the conventional table of
93_implementation_defined.md U1, which the spec marks as general knowledge. -/
def conventionalFont : Font :=
  #v[0xF0, 0x90, 0x90, 0x90, 0xF0,  0x20, 0x60, 0x20, 0x20, 0x70,
     0xF0, 0x10, 0xF0, 0x80, 0xF0,  0xF0, 0x10, 0xF0, 0x10, 0xF0,
     0x90, 0x90, 0xF0, 0x10, 0x10,  0xF0, 0x80, 0xF0, 0x10, 0xF0,
     0xF0, 0x80, 0xF0, 0x90, 0xF0,  0xF0, 0x10, 0x20, 0x40, 0x40,
     0xF0, 0x90, 0xF0, 0x90, 0xF0,  0xF0, 0x90, 0xF0, 0x10, 0xF0,
     0xF0, 0x90, 0xF0, 0x90, 0x90,  0xE0, 0x90, 0xE0, 0x90, 0xE0,
     0xF0, 0x80, 0x80, 0x80, 0xF0,  0xE0, 0x90, 0x90, 0x90, 0xE0,
     0xF0, 0x80, 0xF0, 0x80, 0xF0,  0xF0, 0x80, 0xF0, 0x80, 0x80]

end Config

end Sys2Proof
end

