-- ==== Sys2Proof/Syntax.lean ====
section
/-! DEFINITION. The 34 instructions (00_scope.md R3, 30_encoding.md R73 to R76), one constructor per row of
spec/opcode_table.json. The spec names an instruction by its hex pattern (R79), and so does `op<pattern>`; the comment gives
the conventional syntax of R79. -/

namespace Sys2Proof

/-- An instruction. `x` and `y` are register numbers, `kk` a byte, `nnn` a 12-bit address held as the 16-bit value it is
zero-extended to, `n` a sprite height (R72, R74). `Instr.wellFormed` says that `nnn` and `n` fit their fields. -/
inductive Instr where
  /-- `CLS` (R170) -/
  | op00E0
  /-- `RET` (R101) -/
  | op00EE
  /-- `JP addr` (R102) -/
  | op1nnn (nnn : Word)
  /-- `CALL addr` (R103) -/
  | op2nnn (nnn : Word)
  /-- `SE Vx, byte` (R104) -/
  | op3xkk (x : RegIdx) (kk : Byte)
  /-- `SNE Vx, byte` (R105) -/
  | op4xkk (x : RegIdx) (kk : Byte)
  /-- `SE Vx, Vy` (R106) -/
  | op5xy0 (x y : RegIdx)
  /-- `LD Vx, byte` (R121) -/
  | op6xkk (x : RegIdx) (kk : Byte)
  /-- `ADD Vx, byte` (R122) -/
  | op7xkk (x : RegIdx) (kk : Byte)
  /-- `LD Vx, Vy` (R123) -/
  | op8xy0 (x y : RegIdx)
  /-- `OR Vx, Vy` (R124) -/
  | op8xy1 (x y : RegIdx)
  /-- `AND Vx, Vy` (R125) -/
  | op8xy2 (x y : RegIdx)
  /-- `XOR Vx, Vy` (R126) -/
  | op8xy3 (x y : RegIdx)
  /-- `ADD Vx, Vy` (R127) -/
  | op8xy4 (x y : RegIdx)
  /-- `SUB Vx, Vy` (R128) -/
  | op8xy5 (x y : RegIdx)
  /-- `SHR Vx, Vy`; y is encoded and ignored (R129) -/
  | op8xy6 (x y : RegIdx)
  /-- `SUBN Vx, Vy` (R130) -/
  | op8xy7 (x y : RegIdx)
  /-- `SHL Vx, Vy`; y is encoded and ignored (R131) -/
  | op8xyE (x y : RegIdx)
  /-- `SNE Vx, Vy` (R107) -/
  | op9xy0 (x y : RegIdx)
  /-- `LD I, addr` (R150) -/
  | opAnnn (nnn : Word)
  /-- `JP V0, addr` (R108) -/
  | opBnnn (nnn : Word)
  /-- `RND Vx, byte` (R132) -/
  | opCxkk (x : RegIdx) (kk : Byte)
  /-- `DRW Vx, Vy, nibble` (R172) -/
  | opDxyn (x y : RegIdx) (n : Nat)
  /-- `SKP Vx` (R185) -/
  | opEx9E (x : RegIdx)
  /-- `SKNP Vx` (R186) -/
  | opExA1 (x : RegIdx)
  /-- `LD Vx, DT` (R188) -/
  | opFx07 (x : RegIdx)
  /-- `LD Vx, K` (R187) -/
  | opFx0A (x : RegIdx)
  /-- `LD DT, Vx` (R189) -/
  | opFx15 (x : RegIdx)
  /-- `LD ST, Vx` (R190) -/
  | opFx18 (x : RegIdx)
  /-- `ADD I, Vx` (R151) -/
  | opFx1E (x : RegIdx)
  /-- `LD F, Vx` (R152) -/
  | opFx29 (x : RegIdx)
  /-- `LD B, Vx` (R154) -/
  | opFx33 (x : RegIdx)
  /-- `LD [I], Vx` (R155) -/
  | opFx55 (x : RegIdx)
  /-- `LD Vx, [I]` (R156) -/
  | opFx65 (x : RegIdx)
  deriving DecidableEq, Repr

end Sys2Proof
end

