-- ==== Sys2Proof/WellFormed.lean ====
section
/-! DEFINITION. Which instruction terms stand for an encoded instruction (30_encoding.md R72, R74): an address nnn has 12 bits
and a height n has 4. Register numbers and bytes have their bound in their type. -/

namespace Sys2Proof

/-- The operands fit their fields (R74): `nnn` in 0..4095, `n` in 0..15. -/
def Instr.wellFormed : Instr → Bool
  | .op1nnn nnn | .op2nnn nnn | .opAnnn nnn | .opBnnn nnn => decide (nnn.toNat < 4096)
  | .opDxyn _ _ n => decide (n < 16)
  | .op00E0 | .op00EE => true
  | .op3xkk _ _ | .op4xkk _ _ | .op6xkk _ _ | .op7xkk _ _ | .opCxkk _ _ => true
  | .op5xy0 _ _ | .op9xy0 _ _ | .op8xy0 _ _ | .op8xy1 _ _ | .op8xy2 _ _ | .op8xy3 _ _ | .op8xy4 _ _ | .op8xy5 _ _
  | .op8xy6 _ _ | .op8xy7 _ _ | .op8xyE _ _ => true
  | .opEx9E _ | .opExA1 _ | .opFx07 _ | .opFx0A _ | .opFx15 _ | .opFx18 _ | .opFx1E _ | .opFx29 _ | .opFx33 _
  | .opFx55 _ | .opFx65 _ => true

end Sys2Proof
end

