-- ==== Sys2Proof/Decode.lean ====
section
/-! DEFINITION. Decoding (30_encoding.md R71 to R78) from bytes to an instruction, total and rejecting by name, and after it the
encoder, written from the formats of R73 and the rows of R76. -/

namespace Sys2Proof

/-! ### Fields of an opcode (R72) -/

/-- `nibble1 = op[15:12]`, the major opcode. -/
def nibble1 (op : Word) : Nat := (op.extractLsb 15 12).toNat

/-- `x = nibble2 = op[11:8]`, a register number. -/
def fieldX (op : Word) : RegIdx := Fin.ofNat 16 (op.extractLsb 11 8).toNat

/-- `y = nibble3 = op[7:4]`, a register number. -/
def fieldY (op : Word) : RegIdx := Fin.ofNat 16 (op.extractLsb 7 4).toNat

/-- `n = nibble4 = op[3:0]`, a sprite height or a minor opcode. -/
def fieldN (op : Word) : Nat := (op.extractLsb 3 0).toNat

/-- `kk = op[7:0]`, a byte or a minor opcode. -/
def fieldKK (op : Word) : Byte := op.extractLsb 7 0

/-- `nnn = op[11:0]`, zero-extended to 16 bits (R74). -/
def fieldNNN (op : Word) : Word := (op.extractLsb 11 0).setWidth 16

/-! ### The decoder -/

/-- Why bytes are no instruction. -/
inductive DecodeError where
  /-- Fewer than the two bytes that every instruction has (R78). -/
  | truncated
  /-- The word matches no row of the table of R76: an invalid opcode (R77). -/
  | noPattern (op : Word)
  deriving DecidableEq, Repr

/-- The words with major opcode 0: the whole word selects (R75); the rest of the `0nnn` space is invalid (R77). -/
def decodeZ (op : Word) : Except DecodeError Instr :=
  if op = 0x00E0 then .ok .op00E0
  else if op = 0x00EE then .ok .op00EE
  else .error (.noPattern op)

/-- The words with major opcode 8: `n` selects (R75). -/
def decodeAlu (op : Word) : Except DecodeError Instr :=
  match fieldN op with
  | 0x0 => .ok (.op8xy0 (fieldX op) (fieldY op))
  | 0x1 => .ok (.op8xy1 (fieldX op) (fieldY op))
  | 0x2 => .ok (.op8xy2 (fieldX op) (fieldY op))
  | 0x3 => .ok (.op8xy3 (fieldX op) (fieldY op))
  | 0x4 => .ok (.op8xy4 (fieldX op) (fieldY op))
  | 0x5 => .ok (.op8xy5 (fieldX op) (fieldY op))
  | 0x6 => .ok (.op8xy6 (fieldX op) (fieldY op))
  | 0x7 => .ok (.op8xy7 (fieldX op) (fieldY op))
  | 0xE => .ok (.op8xyE (fieldX op) (fieldY op))
  | _ => .error (.noPattern op)

/-- The words with major opcode E: `kk` selects (R75). -/
def decodeKey (op : Word) : Except DecodeError Instr :=
  match (fieldKK op).toNat with
  | 0x9E => .ok (.opEx9E (fieldX op))
  | 0xA1 => .ok (.opExA1 (fieldX op))
  | _ => .error (.noPattern op)

/-- The words with major opcode F: `kk` selects (R75). -/
def decodeMisc (op : Word) : Except DecodeError Instr :=
  match (fieldKK op).toNat with
  | 0x07 => .ok (.opFx07 (fieldX op))
  | 0x0A => .ok (.opFx0A (fieldX op))
  | 0x15 => .ok (.opFx15 (fieldX op))
  | 0x18 => .ok (.opFx18 (fieldX op))
  | 0x1E => .ok (.opFx1E (fieldX op))
  | 0x29 => .ok (.opFx29 (fieldX op))
  | 0x33 => .ok (.opFx33 (fieldX op))
  | 0x55 => .ok (.opFx55 (fieldX op))
  | 0x65 => .ok (.opFx65 (fieldX op))
  | _ => .error (.noPattern op)

/-- `decode(op)` of R76, by the opcode map of R75. -/
def decodeWord (op : Word) : Except DecodeError Instr :=
  match nibble1 op with
  | 0x0 => decodeZ op
  | 0x1 => .ok (.op1nnn (fieldNNN op))
  | 0x2 => .ok (.op2nnn (fieldNNN op))
  | 0x3 => .ok (.op3xkk (fieldX op) (fieldKK op))
  | 0x4 => .ok (.op4xkk (fieldX op) (fieldKK op))
  | 0x5 => if fieldN op = 0 then .ok (.op5xy0 (fieldX op) (fieldY op)) else .error (.noPattern op)
  | 0x6 => .ok (.op6xkk (fieldX op) (fieldKK op))
  | 0x7 => .ok (.op7xkk (fieldX op) (fieldKK op))
  | 0x8 => decodeAlu op
  | 0x9 => if fieldN op = 0 then .ok (.op9xy0 (fieldX op) (fieldY op)) else .error (.noPattern op)
  | 0xA => .ok (.opAnnn (fieldNNN op))
  | 0xB => .ok (.opBnnn (fieldNNN op))
  | 0xC => .ok (.opCxkk (fieldX op) (fieldKK op))
  | 0xD => .ok (.opDxyn (fieldX op) (fieldY op) (fieldN op))
  | 0xE => decodeKey op
  | 0xF => decodeMisc op
  | _ => .error (.noPattern op)

/-- An opcode from its two bytes, the one at the lower address high (R54). -/
def joinBytes (hi lo : Byte) : Word := hi ++ lo

/-- The two bytes of an opcode in the order memory holds them (R54). -/
def wordBytes (op : Word) : List Byte := [op.extractLsb 15 8, op.extractLsb 7 0]

/-- Decode the first instruction of a byte sequence and give the bytes after it. -/
def decode : List Byte → Except DecodeError (Instr × List Byte)
  | [] => .error .truncated
  | [_] => .error .truncated
  | hi :: lo :: rest =>
    match decodeWord (joinBytes hi lo) with
    | .ok i => .ok (i, rest)
    | .error e => .error e

/-! ### The encoder -/

/-- Format A: `oooo nnnn nnnn nnnn` (R73). -/
def formatA (o : Nat) (nnn : Word) : Word := BitVec.ofNat 16 (0x1000 * o + nnn.toNat)

/-- Formats XK and X: `oooo xxxx kkkk kkkk` (R73). -/
def formatXK (o : Nat) (x : RegIdx) (kk : Byte) : Word := BitVec.ofNat 16 (0x1000 * o + 0x100 * x.val + kk.toNat)

/-- Formats XY and XYN: `oooo xxxx yyyy nnnn` (R73). -/
def formatXYN (o : Nat) (x y : RegIdx) (n : Nat) : Word :=
  BitVec.ofNat 16 (0x1000 * o + 0x100 * x.val + 0x10 * y.val + n)

/-- The opcode of an instruction (R73, R76). -/
def encode : Instr → Word
  | .op00E0 => 0x00E0
  | .op00EE => 0x00EE
  | .op1nnn nnn => formatA 0x1 nnn
  | .op2nnn nnn => formatA 0x2 nnn
  | .op3xkk x kk => formatXK 0x3 x kk
  | .op4xkk x kk => formatXK 0x4 x kk
  | .op5xy0 x y => formatXYN 0x5 x y 0
  | .op6xkk x kk => formatXK 0x6 x kk
  | .op7xkk x kk => formatXK 0x7 x kk
  | .op8xy0 x y => formatXYN 0x8 x y 0
  | .op8xy1 x y => formatXYN 0x8 x y 1
  | .op8xy2 x y => formatXYN 0x8 x y 2
  | .op8xy3 x y => formatXYN 0x8 x y 3
  | .op8xy4 x y => formatXYN 0x8 x y 4
  | .op8xy5 x y => formatXYN 0x8 x y 5
  | .op8xy6 x y => formatXYN 0x8 x y 6
  | .op8xy7 x y => formatXYN 0x8 x y 7
  | .op8xyE x y => formatXYN 0x8 x y 14
  | .op9xy0 x y => formatXYN 0x9 x y 0
  | .opAnnn nnn => formatA 0xA nnn
  | .opBnnn nnn => formatA 0xB nnn
  | .opCxkk x kk => formatXK 0xC x kk
  | .opDxyn x y n => formatXYN 0xD x y n
  | .opEx9E x => formatXK 0xE x 0x9E
  | .opExA1 x => formatXK 0xE x 0xA1
  | .opFx07 x => formatXK 0xF x 0x07
  | .opFx0A x => formatXK 0xF x 0x0A
  | .opFx15 x => formatXK 0xF x 0x15
  | .opFx18 x => formatXK 0xF x 0x18
  | .opFx1E x => formatXK 0xF x 0x1E
  | .opFx29 x => formatXK 0xF x 0x29
  | .opFx33 x => formatXK 0xF x 0x33
  | .opFx55 x => formatXK 0xF x 0x55
  | .opFx65 x => formatXK 0xF x 0x65

/-- The bytes of an instruction as memory holds them. -/
def encodeBytes (i : Instr) : List Byte := wordBytes (encode i)

/-! ### The table of R76 -/

/-- A row of the table: a word `op` matches it when `op AND mask = pattern` (R76). -/
structure OpcodeRow where
  mask : Word
  pattern : Word
  deriving DecidableEq, Repr

/-- The word matches the row (R76). -/
def OpcodeRow.matches (r : OpcodeRow) (op : Word) : Bool := (op &&& r.mask) == r.pattern

/-- The 34 rows of R76, in the table's order. -/
def opcodeRows : List OpcodeRow :=
  [⟨0xFFFF, 0x00E0⟩, ⟨0xFFFF, 0x00EE⟩, ⟨0xF000, 0x1000⟩, ⟨0xF000, 0x2000⟩, ⟨0xF000, 0x3000⟩, ⟨0xF000, 0x4000⟩] ++
  [⟨0xF00F, 0x5000⟩, ⟨0xF000, 0x6000⟩, ⟨0xF000, 0x7000⟩, ⟨0xF00F, 0x8000⟩, ⟨0xF00F, 0x8001⟩, ⟨0xF00F, 0x8002⟩] ++
  [⟨0xF00F, 0x8003⟩, ⟨0xF00F, 0x8004⟩, ⟨0xF00F, 0x8005⟩, ⟨0xF00F, 0x8006⟩, ⟨0xF00F, 0x8007⟩, ⟨0xF00F, 0x800E⟩] ++
  [⟨0xF00F, 0x9000⟩, ⟨0xF000, 0xA000⟩, ⟨0xF000, 0xB000⟩, ⟨0xF000, 0xC000⟩, ⟨0xF000, 0xD000⟩, ⟨0xF0FF, 0xE09E⟩] ++
  [⟨0xF0FF, 0xE0A1⟩, ⟨0xF0FF, 0xF007⟩, ⟨0xF0FF, 0xF00A⟩, ⟨0xF0FF, 0xF015⟩, ⟨0xF0FF, 0xF018⟩, ⟨0xF0FF, 0xF01E⟩] ++
  [⟨0xF0FF, 0xF029⟩, ⟨0xF0FF, 0xF033⟩, ⟨0xF0FF, 0xF055⟩, ⟨0xF0FF, 0xF065⟩]

/-- The row of R76 that an instruction belongs to. -/
def Instr.row : Instr → OpcodeRow
  | .op00E0 => ⟨0xFFFF, 0x00E0⟩
  | .op00EE => ⟨0xFFFF, 0x00EE⟩
  | .op1nnn _ => ⟨0xF000, 0x1000⟩
  | .op2nnn _ => ⟨0xF000, 0x2000⟩
  | .op3xkk _ _ => ⟨0xF000, 0x3000⟩
  | .op4xkk _ _ => ⟨0xF000, 0x4000⟩
  | .op5xy0 _ _ => ⟨0xF00F, 0x5000⟩
  | .op6xkk _ _ => ⟨0xF000, 0x6000⟩
  | .op7xkk _ _ => ⟨0xF000, 0x7000⟩
  | .op8xy0 _ _ => ⟨0xF00F, 0x8000⟩
  | .op8xy1 _ _ => ⟨0xF00F, 0x8001⟩
  | .op8xy2 _ _ => ⟨0xF00F, 0x8002⟩
  | .op8xy3 _ _ => ⟨0xF00F, 0x8003⟩
  | .op8xy4 _ _ => ⟨0xF00F, 0x8004⟩
  | .op8xy5 _ _ => ⟨0xF00F, 0x8005⟩
  | .op8xy6 _ _ => ⟨0xF00F, 0x8006⟩
  | .op8xy7 _ _ => ⟨0xF00F, 0x8007⟩
  | .op8xyE _ _ => ⟨0xF00F, 0x800E⟩
  | .op9xy0 _ _ => ⟨0xF00F, 0x9000⟩
  | .opAnnn _ => ⟨0xF000, 0xA000⟩
  | .opBnnn _ => ⟨0xF000, 0xB000⟩
  | .opCxkk _ _ => ⟨0xF000, 0xC000⟩
  | .opDxyn _ _ _ => ⟨0xF000, 0xD000⟩
  | .opEx9E _ => ⟨0xF0FF, 0xE09E⟩
  | .opExA1 _ => ⟨0xF0FF, 0xE0A1⟩
  | .opFx07 _ => ⟨0xF0FF, 0xF007⟩
  | .opFx0A _ => ⟨0xF0FF, 0xF00A⟩
  | .opFx15 _ => ⟨0xF0FF, 0xF015⟩
  | .opFx18 _ => ⟨0xF0FF, 0xF018⟩
  | .opFx1E _ => ⟨0xF0FF, 0xF01E⟩
  | .opFx29 _ => ⟨0xF0FF, 0xF029⟩
  | .opFx33 _ => ⟨0xF0FF, 0xF033⟩
  | .opFx55 _ => ⟨0xF0FF, 0xF055⟩
  | .opFx65 _ => ⟨0xF0FF, 0xF065⟩

/-! ### The host's reading of a table word -/

/-- An instruction whose bits are `w`, the bits from `nbits` up being 0. -/
def tableWord (nbits w : Nat) : Word := BitVec.ofNat 16 (w % 2 ^ nbits)

/-- What the decoder reads from the bytes of `w` as memory holds them; no instruction is longer than 16 bits (R78). -/
def decodeTableWord (nbits w : Nat) : Option Instr :=
  if nbits ≤ 16 then
    match decode (wordBytes (tableWord nbits w)) with
    | .ok (i, _) => some i
    | .error _ => none
  else none

end Sys2Proof
end

