-- ==== Sys2Proof/Machine/State.lean ====
section
/-! DEFINITION. The state of the core (10_state.md R20) as plain data, what the host can ask and be answered (R39, R40), the
errors (60_exceptions.md R200), and the state after construction and reset (R38). -/

namespace Sys2Proof.Machine

/-- V0..VF (R21). -/
abbrev Registers := Vector Byte 16

/-- `FB[r][c]`, row `r` in 0..31, column `c` in 0..63, row-major, true = set (R31). -/
abbrev Framebuffer := Vector (Vector Bool 64) 32

/-- `K[k]`, true = pressed (R33). -/
abbrev Keypad := Vector Bool 16

/-- The bytes of memory that differ from their reset contents, in rising order of address (`Memory.wf`); what an unlisted
address reads as is `Memory.blank` (notes/assumptions/10.md). -/
abbrev Memory := List Host.Cell

/-- The eight commands of the host (R39). A key index is a natural number (R228), a ROM a byte sequence (R57). -/
inductive HostCommand where
  | load (rom : List Byte)
  | reset
  | tick
  | tickTimers
  | press (k : Nat)
  | release (k : Nat)
  | isPressed (k : Nat)
  | display
  deriving DecidableEq, Repr

/-- What a command that raised no error returns to the host (R39, R40). It is a result and no state (R20, R206;
notes/assumptions/5.md). -/
inductive Reply where
  /-- `tick`: the instruction completed (R206). -/
  | executed
  /-- `tick`: Fx0A found no key pressed (R187, R206). -/
  | waiting
  /-- `load`, `press`, `release`: ok; `reset`: it returns nothing and always succeeds (R240). -/
  | done
  /-- `tick_timers`: the tone-end signal (R220, R222). -/
  | toneEnd (signal : Bool)
  /-- `is_pressed`: the state of the key (R227). -/
  | keyState (pressed : Bool)
  /-- `display`: the current grid (R175). -/
  | grid (fb : Framebuffer)
  deriving DecidableEq, Repr

/-- The five errors of R200, a closed enumeration, with the payloads of R201. An error changes no state and is returned to
the host (R203); a step that raises one ends in it (R204; notes/assumptions/4.md). -/
inductive Fault where
  /-- `tick`, decode: the fetched word matches no row of R76 (R77). `pc` is the address it was fetched from (R201).
  Safe: the machine stops where the spec reports an error. -/
  | invalidOpcode (opcode : Word) (pc : Word)
  /-- `tick`: a fetch (R71), Dxyn (R172), Fx33 (R154), Fx55 (R155) or Fx65 (R156) outside 0..4095; `load` of a ROM of more
  than 3584 bytes (R57). `address` is the lowest address outside memory (R201). Safe, as above. -/
  | memoryOutOfBounds (address : Nat)
  /-- `tick`: 2nnn with 16 return addresses on the stack (R103). Safe, as above. -/
  | stackOverflow
  /-- `tick`: 00EE with the stack empty (R101). Safe, as above. -/
  | stackUnderflow
  /-- `press`, `release`, `is_pressed` with an index of 16 or more (R225 to R228); `tick`: Ex9E or ExA1 with such a value
  in Vx (R185, R186). Safe, as above. -/
  | invalidKeypadIndex (index : Nat)
  deriving DecidableEq, Repr

/-- Why the model gives no meaning. -/
inductive Refusal where
  /-- An arm of `exec` whose instruction has no meaning in the model yet. Safe: nothing can be proved of it. No arm is left
  that answers so. -/
  | notModelled (mnemonic : String)
  deriving DecidableEq, Repr

/-- The architectural state, the tuple of R20, and the three parameters of 00_scope.md R8 as the model's own fields. -/
structure State where
  /-- V0..VF (R21) -/
  v : Registers
  /-- PC (R24) -/
  pc : Word
  /-- I, the index register (R28) -/
  i : Word
  /-- S, the call stack, the last element on top (R27) -/
  stack : List Word
  /-- DT, the delay timer (R29) -/
  dt : Byte
  /-- ST, the sound timer (R29) -/
  st : Byte
  /-- M, the 4096 bytes of memory (R35, R50) -/
  mem : Memory
  /-- FB, the framebuffer (R31) -/
  fb : Framebuffer
  /-- K, the keypad (R33) -/
  keys : Keypad
  /-- The model's own: the parameter FONT, never written (notes/assumptions/1.md). -/
  font : Font
  /-- The model's own: the parameter SCHEDULE, the host's commands still to come (notes/assumptions/3.md). -/
  schedule : List HostCommand
  /-- The model's own: the parameter RNG, the bytes the next draws give (notes/assumptions/2.md). -/
  draws : List Byte
  /-- The model's own: how many bytes have been drawn (notes/assumptions/2.md). -/
  drawCount : Nat
  deriving DecidableEq, Repr

/-- The state after construction and after every `reset` (R38, R240, R242), for given parameters. Memory lists nothing: it
reads as FONT at 0x000..0x04F and as 0 above (`Memory.blank`). -/
def State.construct (font : Font) (schedule : List HostCommand) (draws : List Byte) (drawCount : Nat) : State where
  v := Vector.replicate 16 0
  pc := 0x200
  i := 0
  stack := []
  dt := 0
  st := 0
  mem := []
  fb := Vector.replicate 32 (Vector.replicate 64 false)
  keys := Vector.replicate 16 false
  font := font
  schedule := schedule
  draws := draws
  drawCount := drawCount

/-- The machine right after reset (R38). The parameters have the values of notes/assumptions/1.md (PRESUMED: the default
FONT), 2.md and 3.md (DESIGN CHOICE: no draw and no command listed). -/
def State.reset : State := State.construct Config.conventionalFont [] [] 0

end Sys2Proof.Machine
end

