-- ==== Sys2Proof/Machine/Ops.lean ====
section
/-! DEFINITION. The spec's primitives (00_scope.md R11) as named operations over the state: outcomes and errors, registers,
memory, the call stack, the framebuffer, the keypad, the random byte, the fetch. -/

namespace Sys2Proof.Machine

/-! ### Outcomes and errors -/

/-- Go on with the result of a computation that did not raise an error. -/
def andThen {α β : Type} (o : Host.Outcome α Fault Refusal) (k : α → Host.Outcome β Fault Refusal) :
    Host.Outcome β Fault Refusal :=
  match o with
  | .next a => k a
  | .fault e => .fault e
  | .refused r => .refused r

/-- `raise E(info)` (R11): the command ends with the error. This is all that happens on this core in the place of taking an
exception: no state changes, nothing is saved, there is no vector and no return from it (R203, R208, R209). -/
def raise {α : Type} (e : Fault) : Host.Outcome α Fault Refusal := .fault e

/-- `check(cond, E)` (R11). -/
def check {α : Type} (cond : Prop) [Decidable cond] (e : Fault) (k : Host.Outcome α Fault Refusal) :
    Host.Outcome α Fault Refusal :=
  if cond then k else raise e

/-! ### Registers -/

/-- `V[x]` (R21); no register is hardwired. -/
def State.reg (s : State) (x : RegIdx) : Byte := s.v[x]

/-- `V[x] <- b`. -/
def State.setReg (s : State) (x : RegIdx) (b : Byte) : State := { s with v := s.v.set x b }

/-- All of V0..VF at once, for Fx65. -/
def State.setRegs (s : State) (v : Registers) : State := { s with v := v }

/-- `PC <- target`. -/
def State.setPc (s : State) (target : Word) : State := { s with pc := target }

/-- `I <- v`. -/
def State.setI (s : State) (v : Word) : State := { s with i := v }

/-- `DT <- v`. -/
def State.setDt (s : State) (v : Byte) : State := { s with dt := v }

/-- `ST <- v`. -/
def State.setSt (s : State) (v : Byte) : State := { s with st := v }

/-- The call stack, replaced. -/
def State.setStack (s : State) (stack : List Word) : State := { s with stack := stack }

/-- The framebuffer, replaced. -/
def State.setFb (s : State) (fb : Framebuffer) : State := { s with fb := fb }

/-- The host's commands still to come, replaced. -/
def State.setSchedule (s : State) (schedule : List HostCommand) : State := { s with schedule := schedule }

/-- A skip (R100): PC, which is the post-fetch PC here, moves past the next two bytes, whatever they hold. -/
def skipIf (cond : Bool) (s : State) : Host.Outcome State Fault Refusal :=
  .next (if cond then s.setPc (s.pc + 2) else s)

/-! ### Memory -/

/-- What an address reads as while nothing else was written there: FONT at 0x000..0x04F, and 0 (R38). -/
def Memory.blank (font : Font) (a : Nat) : Byte := if h : a < 80 then font[a] else 0

/-- The listed byte of an address. -/
def Memory.find : Memory → Nat → Option Byte
  | [], _ => none
  | c :: m, a => if c.1 = a then some c.2 else Memory.find m a

/-- `M[a]` (R51). -/
def Memory.read (font : Font) (m : Memory) (a : Nat) : Byte := (Memory.find m a).getD (Memory.blank font a)

/-- The list without the entry of an address. -/
def Memory.erase (m : Memory) (a : Nat) : Memory := m.filter fun c => c.1 != a

/-- The list with an entry put in its place. -/
def Memory.insert : Memory → Nat → Byte → Memory
  | [], a, b => [(a, b)]
  | c :: m, a, b => if c.1 < a then c :: Memory.insert m a b else (a, b) :: c :: m

/-- `M[a] <- b` (R52), in the canonical form: a byte equal to what the unlisted address reads as is not listed. -/
def Memory.write (font : Font) (m : Memory) (a : Nat) (b : Byte) : Memory :=
  if b = Memory.blank font a then Memory.erase m a else Memory.insert (Memory.erase m a) a b

/-- The canonical form: addresses of memory (R50), strictly rising, and no entry that says what is so without it. -/
abbrev Memory.wf (font : Font) (m : Memory) : Prop :=
  m.Pairwise (fun c d => c.1 < d.1) ∧ ∀ c ∈ m, c.1 < 4096 ∧ c.2 ≠ Memory.blank font c.1

/-- The byte at an address of memory. -/
def State.byteAt (s : State) (a : Nat) : Byte := s.mem.read s.font a

/-- The byte at an address of memory, replaced. -/
def State.setByte (s : State) (a : Nat) (b : Byte) : State := { s with mem := s.mem.write s.font a b }

/-- `MemRead(a, 1)` (R51): the address is an exact natural number (R53). -/
def memRead (s : State) (a : Nat) : Host.Outcome Byte Fault Refusal :=
  check (a < 4096) (.memoryOutOfBounds a) (.next (s.byteAt a))

/-- `len` consecutive bytes from `a` are in memory (R153, R172: no bytes are always in memory). -/
abbrev spanInMemory (a len : Nat) : Prop := len = 0 ∨ a + len ≤ 4096

/-- The check of an access of `len` consecutive bytes from `a` (R153), made before any write: the error reports the lowest
address at or above 4096. -/
def checkSpan {α : Type} (a len : Nat) (k : Host.Outcome α Fault Refusal) : Host.Outcome α Fault Refusal :=
  check (spanInMemory a len) (.memoryOutOfBounds (max a 4096)) k

/-- The bytes at `a`, `a + 1`, ..., `len` of them (R56). -/
def State.bytesAt (s : State) (a : Nat) : Nat → List Byte
  | 0 => []
  | len + 1 => s.byteAt a :: s.bytesAt (a + 1) len

/-- Bytes written at `a`, `a + 1`, ..., in increasing address order (R56). -/
def State.setBytes (s : State) (a : Nat) : List Byte → State
  | [] => s
  | b :: bs => (s.setByte a b).setBytes (a + 1) bs

/-- The fetch of R71 from PC: two bytes, the first one high; any PC up to 4094, odd ones too (R55). -/
def fetch (s : State) : Host.Outcome Word Fault Refusal :=
  andThen (memRead s s.pc.toNat) fun hi =>
    andThen (memRead s (s.pc.toNat + 1)) fun lo => .next (joinBytes hi lo)

/-! ### The call stack (R27) -/

/-- `push(v)`. -/
def push (v : Word) (s : State) : Host.Outcome State Fault Refusal :=
  check (s.stack.length < 16) .stackOverflow (.next (s.setStack (s.stack ++ [v])))

/-- `pop()`: the value and the state without it. -/
def pop (s : State) : Host.Outcome (Word × State) Fault Refusal :=
  match s.stack.getLast? with
  | none => raise .stackUnderflow
  | some v => .next (v, s.setStack s.stack.dropLast)

/-! ### The framebuffer (R31) -/

/-- `Pix(c, r)`. -/
def Framebuffer.pixel (fb : Framebuffer) (c : Fin 64) (r : Fin 32) : Bool := fb[r][c]

/-- `Pix(c, r) <- b`. -/
def Framebuffer.setPixel (fb : Framebuffer) (c : Fin 64) (r : Fin 32) (b : Bool) : Framebuffer :=
  fb.set r (fb[r].set c b)

/-- Every pixel false. -/
def Framebuffer.clear : Framebuffer := Vector.replicate 32 (Vector.replicate 64 false)

/-! ### The keypad (R33) -/

/-- `Key(k)`. -/
def State.key (s : State) (k : Fin 16) : Bool := s.keys[k]

/-- `K[k] <- b`. -/
def State.setKey (s : State) (k : Fin 16) (b : Bool) : State := { s with keys := s.keys.set k b }

/-- A key index, checked: 16 and above are an error, never masked (R228, R185). -/
def keyIndex (k : Nat) : Host.Outcome (Fin 16) Fault Refusal :=
  if h : k < 16 then .next ⟨k, h⟩ else raise (.invalidKeypadIndex k)

/-- The lowest-numbered pressed key (R187). -/
def State.lowestKey (s : State) : Option (Fin 16) := (List.finRange 16).find? fun k => s.key k

/-! ### The random byte -/

/-- `random8()` (R11): the free byte of this draw (notes/assumptions/2.md). -/
def State.random8 (s : State) : Byte := s.draws.headD (Config.randomByte s.drawCount)

/-- The state after a draw. -/
def State.drawn (s : State) : State := { s with draws := s.draws.tail, drawCount := s.drawCount + 1 }

end Sys2Proof.Machine
end

