-- ==== Sys2Proof/Machine/Operands.lean ====
section
/-! DEFINITION. Operand forms (30_encoding.md R72, R74): a register operand is `State.reg`, a byte is itself, an address `nnn`
is the 16-bit value it is zero-extended to. Here are the forms that take more: a span of registers, a span of memory through I,
decimal digits, the bits of a sprite row, a key named by a register. -/

namespace Sys2Proof.Machine

/-- V0..Vx, in order (R155). -/
def State.firstRegs (s : State) (x : RegIdx) : List Byte := s.v.toList.take (x.val + 1)

/-- V0..Vx taken from memory at I, the other registers kept (R156). -/
def State.regsFromMemory (s : State) (x : RegIdx) : Registers :=
  Vector.ofFn fun k => if k ≤ x then s.byteAt (s.i.toNat + k.val) else s.reg k

/-- The three decimal digits of a byte: hundreds, tens, ones (R154). -/
def decimalDigits (b : Byte) : List Byte :=
  [BitVec.ofNat 8 (b.toNat / 100), BitVec.ofNat 8 (b.toNat / 10 % 10), BitVec.ofNat 8 (b.toNat % 10)]

/-- The eight pixels of a sprite byte from left to right, bit 7 first (R171). -/
def spritePixels (b : Byte) : List Bool :=
  [b.getLsbD 7, b.getLsbD 6, b.getLsbD 5, b.getLsbD 4, b.getLsbD 3, b.getLsbD 2, b.getLsbD 1, b.getLsbD 0]

/-- The key whose number is in Vx; the whole of Vx counts (R185). -/
def State.keyOperand (s : State) (x : RegIdx) : Host.Outcome (Fin 16) Fault Refusal := keyIndex (s.reg x).toNat

end Sys2Proof.Machine
end

