-- ==== Sys2Proof/Machine/Flags.lean ====
section
/-! DEFINITION. The 8-bit arithmetic laws (41_alu.md R120) and every flag that VF receives (10_state.md R37). Sums and
differences are taken exactly on natural numbers and narrowed at the end (00_scope.md R10). -/

namespace Sys2Proof.Machine

/-- `(a + b) mod 256`. -/
def addWrap (a b : Byte) : Byte := BitVec.ofNat 8 (a.toNat + b.toNat)

/-- `(a - b) mod 256`. -/
def subWrap (a b : Byte) : Byte := BitVec.ofNat 8 (a.toNat + 256 - b.toNat)

/-- `a >> 1`. -/
def shiftRight1 (a : Byte) : Byte := BitVec.ofNat 8 (a.toNat / 2)

/-- `(a << 1) mod 256`. -/
def shiftLeft1 (a : Byte) : Byte := BitVec.ofNat 8 (a.toNat * 2)

/-- A flag in VF is 0 or 1 (R37). -/
def flagByte (b : Bool) : Byte := if b then 1 else 0

/-- Carry of a sum: `a + b > 255` (R127). -/
def carry (a b : Byte) : Bool := decide (a.toNat + b.toNat > 255)

/-- No borrow of a difference `a - b`: `a ≥ b` (R128, R130). -/
def noBorrow (a b : Byte) : Bool := decide (a.toNat ≥ b.toNat)

/-- The bit a right shift puts out (R129). -/
def lowBit (a : Byte) : Bool := a.getLsbD 0

/-- The bit a left shift puts out (R131). -/
def highBit (a : Byte) : Bool := a.getLsbD 7

/-- `VF <- flag`. -/
def State.setFlag (s : State) (flag : Bool) : State := s.setReg flagReg (flagByte flag)

/-- A result in Vx and a flag in VF. The flag is written last, so for x = 15 VF ends as the flag (00_scope.md R13). -/
def State.setResultFlag (s : State) (x : RegIdx) (result : Byte) (flag : Bool) : State :=
  (s.setReg x result).setFlag flag

end Sys2Proof.Machine
end

