-- ==== Sys2Proof/Machine/Alu.lean ====
section
/-! DEFINITION. Register loads, ALU and random (41_alu.md). None of these raises an error. -/

namespace Sys2Proof.Machine

/-- 6xkk (R121): `V[x] <- kk`. -/
def exec6xkk (x : RegIdx) (kk : Byte) (s : State) : Host.Outcome State Fault Refusal := .next (s.setReg x kk)

/-- 7xkk (R122): `V[x] <- (V[x] + kk) mod 256`, no flag. -/
def exec7xkk (x : RegIdx) (kk : Byte) (s : State) : Host.Outcome State Fault Refusal :=
  .next (s.setReg x (addWrap (s.reg x) kk))

/-- 8xy0 (R123): `V[x] <- V[y]`. -/
def exec8xy0 (x y : RegIdx) (s : State) : Host.Outcome State Fault Refusal := .next (s.setReg x (s.reg y))

/-- 8xy1 (R124): `V[x] <- V[x] OR V[y]`, VF not reset. -/
def exec8xy1 (x y : RegIdx) (s : State) : Host.Outcome State Fault Refusal := .next (s.setReg x (s.reg x ||| s.reg y))

/-- 8xy2 (R125): `V[x] <- V[x] AND V[y]`. -/
def exec8xy2 (x y : RegIdx) (s : State) : Host.Outcome State Fault Refusal := .next (s.setReg x (s.reg x &&& s.reg y))

/-- 8xy3 (R126): `V[x] <- V[x] XOR V[y]`. -/
def exec8xy3 (x y : RegIdx) (s : State) : Host.Outcome State Fault Refusal := .next (s.setReg x (s.reg x ^^^ s.reg y))

/-- 8xy4 (R127): sum and carry. -/
def exec8xy4 (x y : RegIdx) (s : State) : Host.Outcome State Fault Refusal :=
  .next (s.setResultFlag x (addWrap (s.reg x) (s.reg y)) (carry (s.reg x) (s.reg y)))

/-- 8xy5 (R128): `V[x] - V[y]` and no borrow. -/
def exec8xy5 (x y : RegIdx) (s : State) : Host.Outcome State Fault Refusal :=
  .next (s.setResultFlag x (subWrap (s.reg x) (s.reg y)) (noBorrow (s.reg x) (s.reg y)))

/-- 8xy6 (R129): `V[x] >> 1` and the bit put out; the source is Vx, y is ignored. -/
def exec8xy6 (x : RegIdx) (s : State) : Host.Outcome State Fault Refusal :=
  .next (s.setResultFlag x (shiftRight1 (s.reg x)) (lowBit (s.reg x)))

/-- 8xy7 (R130): `V[y] - V[x]` and no borrow. -/
def exec8xy7 (x y : RegIdx) (s : State) : Host.Outcome State Fault Refusal :=
  .next (s.setResultFlag x (subWrap (s.reg y) (s.reg x)) (noBorrow (s.reg y) (s.reg x)))

/-- 8xyE (R131): `V[x] << 1` and the bit put out; the source is Vx, y is ignored. -/
def exec8xyE (x : RegIdx) (s : State) : Host.Outcome State Fault Refusal :=
  .next (s.setResultFlag x (shiftLeft1 (s.reg x)) (highBit (s.reg x)))

/-- Cxkk (R132): `V[x] <- random8() AND kk`. -/
def execCxkk (x : RegIdx) (kk : Byte) (s : State) : Host.Outcome State Fault Refusal :=
  .next (s.drawn.setReg x (s.random8 &&& kk))

end Sys2Proof.Machine
end

