-- ==== Sys2Proof/Machine/Control.lean ====
section
/-! DEFINITION. Control transfer and skips (40_control.md). The state a meaning takes holds the post-fetch PC (R24). -/

namespace Sys2Proof.Machine

/-- 00EE (R101): PC from the call stack. -/
def exec00EE (s : State) : Host.Outcome State Fault Refusal :=
  andThen (pop s) fun r => .next (r.2.setPc r.1)

/-- 1nnn (R102): `PC <- nnn`. -/
def exec1nnn (nnn : Word) (s : State) : Host.Outcome State Fault Refusal := .next (s.setPc nnn)

/-- 2nnn (R103): push the post-fetch PC, `PC <- nnn`. -/
def exec2nnn (nnn : Word) (s : State) : Host.Outcome State Fault Refusal :=
  andThen (push s.pc s) fun t => .next (t.setPc nnn)

/-- 3xkk (R104): skip when `V[x] = kk`. -/
def exec3xkk (x : RegIdx) (kk : Byte) (s : State) : Host.Outcome State Fault Refusal := skipIf (s.reg x == kk) s

/-- 4xkk (R105): skip when `V[x] ≠ kk`. -/
def exec4xkk (x : RegIdx) (kk : Byte) (s : State) : Host.Outcome State Fault Refusal := skipIf (s.reg x != kk) s

/-- 5xy0 (R106): skip when `V[x] = V[y]`. -/
def exec5xy0 (x y : RegIdx) (s : State) : Host.Outcome State Fault Refusal := skipIf (s.reg x == s.reg y) s

/-- 9xy0 (R107): skip when `V[x] ≠ V[y]`. -/
def exec9xy0 (x y : RegIdx) (s : State) : Host.Outcome State Fault Refusal := skipIf (s.reg x != s.reg y) s

/-- Bnnn (R108): `PC <- V[0] + nnn`, an exact sum that is not reduced to 12 bits. -/
def execBnnn (nnn : Word) (s : State) : Host.Outcome State Fault Refusal :=
  .next (s.setPc (BitVec.ofNat 16 ((s.reg 0).toNat + nnn.toNat)))

end Sys2Proof.Machine
end

