-- ==== Sys2Proof/Machine/Display.lean ====
section
/-! DEFINITION. The framebuffer writer (43_display.md). -/

namespace Sys2Proof.Machine

/-- A framebuffer while a sprite is drawn, and whether a set pixel was turned off so far. -/
abbrev Drawing := Framebuffer × Bool

/-- One pixel XORed (R172): it is toggled, and turning a set pixel off is a collision. -/
def togglePixel (c : Fin 64) (r : Fin 32) (d : Drawing) : Drawing :=
  (d.1.setPixel c r (!d.1.pixel c r), d.2 || d.1.pixel c r)

/-- The pixels of one sprite row from column `c` on, in row `r`; both coordinates wrap, pixel by pixel (R172, R173). -/
def drawPixels : List Bool → Nat → Nat → Drawing → Drawing
  | [], _, _, d => d
  | b :: bs, c, r, d => drawPixels bs (c + 1) r (if b then togglePixel (Fin.ofNat 64 c) (Fin.ofNat 32 r) d else d)

/-- The rows of a sprite from row `r` on, each starting at column `c` (R171). -/
def drawRows : List Byte → Nat → Nat → Drawing → Drawing
  | [], _, _, d => d
  | b :: bs, c, r, d => drawRows bs c (r + 1) (drawPixels (spritePixels b) c r d)

/-- 00E0 (R170): every pixel false. -/
def exec00E0 (s : State) : Host.Outcome State Fault Refusal := .next (s.setFb Framebuffer.clear)

/-- Dxyn (R172): the `n` sprite bytes at I drawn at (Vx, Vy), and VF the collision flag. `n = 0` reads nothing and is never
out of bounds (R173). -/
def execDxyn (x y : RegIdx) (n : Nat) (s : State) : Host.Outcome State Fault Refusal :=
  checkSpan s.i.toNat n <|
    let d := drawRows (s.bytesAt s.i.toNat n) (s.reg x).toNat (s.reg y).toNat (s.fb, false)
    .next ((s.setFb d.1).setFlag d.2)

end Sys2Proof.Machine
end

