-- ==== Sys2Proof/Machine/IndexMemory.lean ====
section
/-! DEFINITION. The index register and transfers through it (42_index_memory.md). No access through I changes I (R153). -/

namespace Sys2Proof.Machine

/-- Annn (R150): `I <- nnn`. -/
def execAnnn (nnn : Word) (s : State) : Host.Outcome State Fault Refusal := .next (s.setI nnn)

/-- Fx1E (R151): `I <- (I + V[x]) mod 65536`, no flag. -/
def execFx1E (x : RegIdx) (s : State) : Host.Outcome State Fault Refusal :=
  .next (s.setI (BitVec.ofNat 16 (s.i.toNat + (s.reg x).toNat)))

/-- Fx29 (R152): `I <- 5 * V[x]`, exact, the whole of Vx. -/
def execFx29 (x : RegIdx) (s : State) : Host.Outcome State Fault Refusal :=
  .next (s.setI (BitVec.ofNat 16 (5 * (s.reg x).toNat)))

/-- Fx33 (R154): the decimal digits of Vx to I, I+1, I+2. -/
def execFx33 (x : RegIdx) (s : State) : Host.Outcome State Fault Refusal :=
  checkSpan s.i.toNat 3 (.next (s.setBytes s.i.toNat (decimalDigits (s.reg x))))

/-- Fx55 (R155): V0..Vx to memory from I. -/
def execFx55 (x : RegIdx) (s : State) : Host.Outcome State Fault Refusal :=
  checkSpan s.i.toNat (x.val + 1) (.next (s.setBytes s.i.toNat (s.firstRegs x)))

/-- Fx65 (R156): V0..Vx from memory at I. -/
def execFx65 (x : RegIdx) (s : State) : Host.Outcome State Fault Refusal :=
  checkSpan s.i.toNat (x.val + 1) (.next (s.setRegs (s.regsFromMemory x)))

end Sys2Proof.Machine
end

