-- ==== Sys2Proof/Machine/KeypadTimers.lean ====
section
/-! DEFINITION. Keypad and timer instructions (44_keypad_timers.md). -/

namespace Sys2Proof.Machine

/-- Ex9E (R185): skip when the key numbered Vx is pressed. -/
def execEx9E (x : RegIdx) (s : State) : Host.Outcome State Fault Refusal :=
  andThen (s.keyOperand x) fun k => skipIf (s.key k) s

/-- ExA1 (R186): skip when the key numbered Vx is not pressed. -/
def execExA1 (x : RegIdx) (s : State) : Host.Outcome State Fault Refusal :=
  andThen (s.keyOperand x) fun k => skipIf (!s.key k) s

/-- Fx0A (R187): the lowest pressed key to Vx, or back to this instruction. That the tick then answers Waiting is
`tickReply`. -/
def execFx0A (x : RegIdx) (s : State) : Host.Outcome State Fault Refusal :=
  match s.lowestKey with
  | some k => .next (s.setReg x (BitVec.ofNat 8 k.val))
  | none => .next (s.setPc (s.pc - 2))

/-- Fx07 (R188): `V[x] <- DT`. -/
def execFx07 (x : RegIdx) (s : State) : Host.Outcome State Fault Refusal := .next (s.setReg x s.dt)

/-- Fx15 (R189): `DT <- V[x]`. -/
def execFx15 (x : RegIdx) (s : State) : Host.Outcome State Fault Refusal := .next (s.setDt (s.reg x))

/-- Fx18 (R190): `ST <- V[x]`. -/
def execFx18 (x : RegIdx) (s : State) : Host.Outcome State Fault Refusal := .next (s.setSt (s.reg x))

end Sys2Proof.Machine
end

