-- ==== Sys2Proof/Machine/Commands.lean ====
section
/-! DEFINITION. The eight commands of the host (10_state.md R39), each one atomic step that gives a reply and the next state or
raises an error, and which command comes next. -/

namespace Sys2Proof.Machine

/-- The outcome of a tick that raised no error (R70, R206): Waiting for Fx0A with no key pressed, Executed otherwise. -/
def tickReply (i : Instr) (s : State) : Reply :=
  match i, s.lowestKey with
  | .opFx0A _, none => .waiting
  | _, _ => .executed

/-- The tick after the fetch (R70): PC moves on before the instruction runs; an invalid opcode is reported with the address
it was fetched from (R201). -/
def executeWord (op : Word) (s : State) : Host.Outcome (Reply × State) Fault Refusal :=
  match decodeWord op with
  | .error _ => raise (.invalidOpcode op s.pc)
  | .ok i => andThen (exec i (s.setPc (s.pc + 2))) fun t => .next (tickReply i s, t)

/-- `tick()` (R70): the errors come in the order of R205. -/
def tick (s : State) : Host.Outcome (Reply × State) Fault Refusal := andThen (fetch s) fun op => executeWord op s

/-- `tick_timers()` (R220): each non-zero timer counts down by one, and ST = 1 before signals tone end. -/
def tickTimers (s : State) : Host.Outcome (Reply × State) Fault Refusal :=
  .next (.toneEnd (s.st == 1), (s.setDt (if s.dt = 0 then 0 else s.dt - 1)).setSt (if s.st = 0 then 0 else s.st - 1))

/-- `load(rom)` (R57): the ROM to memory from 0x200; nothing else changes. -/
def loadRom (rom : List Byte) (s : State) : Host.Outcome (Reply × State) Fault Refusal :=
  check (rom.length ≤ 3584) (.memoryOutOfBounds 0x1000) (.next (.done, s.setBytes 0x200 rom))

/-- `reset()` (R240): every element of the state to its value in R38; the parameters stay (notes/assumptions/11.md). -/
def resetCore (s : State) : Host.Outcome (Reply × State) Fault Refusal :=
  .next (.done, State.construct s.font s.schedule s.draws s.drawCount)

/-- `press(k)` (R225). -/
def pressKey (k : Nat) (s : State) : Host.Outcome (Reply × State) Fault Refusal :=
  andThen (keyIndex k) fun k => .next (.done, s.setKey k true)

/-- `release(k)` (R226). -/
def releaseKey (k : Nat) (s : State) : Host.Outcome (Reply × State) Fault Refusal :=
  andThen (keyIndex k) fun k => .next (.done, s.setKey k false)

/-- `is_pressed(k)` (R227). -/
def queryKey (k : Nat) (s : State) : Host.Outcome (Reply × State) Fault Refusal :=
  andThen (keyIndex k) fun k => .next (.keyState (s.key k), s)

/-- `display()` (R175). -/
def displayGrid (s : State) : Host.Outcome (Reply × State) Fault Refusal := .next (.grid s.fb, s)

/-- One command of the host (R39, R41). -/
def serve (c : HostCommand) (s : State) : Host.Outcome (Reply × State) Fault Refusal :=
  match c with
  | .load rom => loadRom rom s
  | .reset => resetCore s
  | .tick => tick s
  | .tickTimers => tickTimers s
  | .press k => pressKey k s
  | .release k => releaseKey k s
  | .isPressed k => queryKey k s
  | .display => displayGrid s

/-- A command as the host sees it: its result, and the state it leaves, which an error does not change (R203). -/
def transact (c : HostCommand) (s : State) : Host.Outcome Reply Fault Refusal × State :=
  match serve c s with
  | .next (r, t) => (.next r, t)
  | .fault e => (.fault e, s)
  | .refused r => (.refused r, s)

/-- The command the host issues next: the head of its schedule, and `tick` when that is empty (notes/assumptions/3.md). -/
def nextCommand (s : State) : HostCommand := s.schedule.headD .tick

/-- The state with the next command taken off the schedule. -/
def popSchedule (s : State) : State := s.setSchedule s.schedule.tail

/-- A PC that can be fetched from (R71): the given one, and else the program origin (notes/assumptions/7.md). -/
def fetchableOrOrigin (pc : Word) : Word := if pc.toNat ≤ 4094 then pc else 0x200

end Sys2Proof.Machine
end

