-- ==== Sys2Proof/Machine/Step.lean ====
section
/-! DEFINITION. One step of the core: one command of the host, run to completion (10_state.md R41). -/

namespace Sys2Proof.Machine

/-- The next command of the host's schedule, `tick` when it is empty (notes/assumptions/3.md). The reply is the host's and is
not stored (R40); an error ends the run (R204). -/
def step (s : State) : Host.Outcome State Fault Refusal :=
  andThen (serve (nextCommand s) (popSchedule s)) fun r => .next r.2

/-- The state whose very next step fetches and runs the word `w` (notes/assumptions/7.md). -/
def State.withFetchWord (s : State) (nbits w : Nat) : State :=
  let pc := fetchableOrOrigin s.pc
  ((s.setSchedule []).setPc pc).setBytes pc.toNat (wordBytes (tableWord nbits w))

end Sys2Proof.Machine
end

