-- ==== Sys2Proof/Safety.lean ====
section
/-! DEFINITION. The terms claims use: the parts of a state, what a change leaves alone, the invariant of the machine, and a run
without an error. -/

namespace Sys2Proof.Machine

/-- The parts of a state, each element of the tuple of 10_state.md R20 taken apart, and the model's own fields. -/
inductive Part where
  | reg (x : RegIdx)
  | pc
  | index
  | stack
  | delay
  | sound
  | byte (a : Nat)
  | pixel (c : Fin 64) (r : Fin 32)
  | key (k : Fin 16)
  | font
  | schedule
  | rng
  deriving DecidableEq, Repr

/-- Two states hold the same in one part. -/
def State.sameAt (s t : State) : Part → Prop
  | .reg x => t.reg x = s.reg x
  | .pc => t.pc = s.pc
  | .index => t.i = s.i
  | .stack => t.stack = s.stack
  | .delay => t.dt = s.dt
  | .sound => t.st = s.st
  | .byte a => t.byteAt a = s.byteAt a
  | .pixel c r => t.fb.pixel c r = s.fb.pixel c r
  | .key k => t.key k = s.key k
  | .font => t.font = s.font
  | .schedule => t.schedule = s.schedule
  | .rng => t.draws = s.draws ∧ t.drawCount = s.drawCount

/-- The frame of a change from `s` to `t`: every part but the named ones is as before. -/
def ChangesOnly (may : Part → Prop) (s t : State) : Prop := ∀ p, ¬ may p → s.sameAt t p

/-- The state is about to run `i`: its two bytes stand at PC (R70, R71). -/
def State.runsNext (s : State) (i : Instr) : Prop :=
  ∃ op, fetch s = .next op ∧ decodeWord op = .ok i

/-- The number `w` is the opcode of `i`: its word decodes to it (R76). -/
def IsOpcodeOf (w : Nat) (i : Instr) : Prop := decodeWord (BitVec.ofNat 16 w) = .ok i

/-- The sprite of Dxyn has a 1 bit for the pixel (43_display.md R171, R172): some row below `n` and some column below 8 whose
bit is 1 lands on it, both coordinates wrapped. -/
def SpriteCovers (s : State) (x y : RegIdx) (n : Nat) (c : Fin 64) (r : Fin 32) : Prop :=
  ∃ row < n, ∃ col < 8, (s.byteAt (s.i.toNat + row)).getLsbD (7 - col) = true ∧
    c.val = ((s.reg x).toNat + col) % 64 ∧ r.val = ((s.reg y).toNat + row) % 32

/-- A fetch reads the number `b` as the byte at `a` (20_memory.md R54, R63): from `a` as the first of its two bytes, where that
fetch is valid (R71), and from `a - 1` as the second, where there is such an address. -/
def FetchReads (s : State) (a b : Nat) : Prop :=
  (a ≤ 4094 → ∃ op, fetch (s.setPc (BitVec.ofNat 16 a)) = .next op ∧ op.toNat / 256 = b) ∧
  (1 ≤ a → ∃ op, fetch (s.setPc (BitVec.ofNat 16 (a - 1))) = .next op ∧ op.toNat % 256 = b)

/-- The invariant of the machine: memory in its canonical form; at most 16 return addresses, each a post-fetch PC (10_state.md
R27, R26); PC within the bound of R26. -/
structure State.Inv (s : State) : Prop where
  memory : s.mem.wf s.font
  depth : s.stack.length ≤ 16
  returns : ∀ a ∈ s.stack, 2 ≤ a.toNat ∧ a.toNat ≤ 4096
  pc : s.pc.toNat ≤ 0x10FE

/-- A run of `n` steps without an error (60_exceptions.md R204). -/
def SafeRun (n : Nat) (s : State) : Prop := ∃ t, Sys2Proof.core.run n s = .next t

end Sys2Proof.Machine
end

