-- ==== Sys2Proof/Certificates/Slice0/Obligations.lean ====
section
/-! DEFINITION. The statements for the provers, from the numbered rules of spec/. A meaning takes the state with the post-fetch
PC (10_state.md R24), so where a statement about `exec` says nothing of `.pc` and its frame does not name it, PC after the tick
is P + 2 (R25). A statement about an error is about the whole tick, which then leaves the state as it was (R203). -/

open Sys2Proof Sys2Proof.Machine

/-! ### Encoding and decoding (30_encoding.md) -/

/-- A few opcodes written out from the bit patterns of R73, at least one of every family, and words that are no opcode (R77).
A sanity statement. -/
def Obligations.WrittenOutWordsDecode : Prop :=
  IsOpcodeOf 0x00EE .op00EE ∧ IsOpcodeOf 0x1ABC (.op1nnn 0xABC) ∧ IsOpcodeOf 0x3105 (.op3xkk 1 0x05) ∧
  IsOpcodeOf 0x8AB6 (.op8xy6 0xA 0xB) ∧ IsOpcodeOf 0xC30F (.opCxkk 3 0x0F) ∧ IsOpcodeOf 0xA300 (.opAnnn 0x300) ∧
  IsOpcodeOf 0xF255 (.opFx55 2) ∧ IsOpcodeOf 0x00E0 .op00E0 ∧ IsOpcodeOf 0xDF01 (.opDxyn 15 0 1) ∧
  IsOpcodeOf 0xE19E (.opEx9E 1) ∧ IsOpcodeOf 0xF50A (.opFx0A 5) ∧
  (∀ w ∈ [0x0000, 0x00E1, 0x0123, 0x5011, 0x800F, 0xE09F, 0xF0FF], ∀ i, ¬ IsOpcodeOf w i)

/-- Decoding the bytes of an encoded well-formed instruction gives it back, and the bytes after it, for every operand value the
encoding admits. -/
def Obligations.EncodedInstructionsDecodeBack : Prop :=
  ∀ (i : Instr) (rest : List Byte), i.wellFormed = true →
    decode (encodeBytes i ++ rest) = .ok (i, rest) ∧ decodeWord (encode i) = .ok i

/-- A word that decodes is the encoding of what it decodes to, which is well formed: no bit of an opcode is dropped. -/
def Obligations.DecodedWordsEncodeBack : Prop :=
  ∀ (op : Word) (i : Instr), decodeWord op = .ok i → encode i = op ∧ i.wellFormed = true

/-- R76: the decoder gives the instruction whose row matches, exactly one row matches a word that decodes, and where none
matches the tick raises InvalidOpcode(op, P). -/
def Obligations.DecoderFollowsOpcodeTable : Prop :=
  (∀ (op : Word) (i : Instr), decodeWord op = .ok i →
    i.row ∈ opcodeRows ∧ i.row.matches op = true ∧ ∀ r ∈ opcodeRows, r.matches op = true → r = i.row) ∧
  (∀ op : Word, (∃ r ∈ opcodeRows, r.matches op = true) → ∃ i, decodeWord op = .ok i) ∧
  (∀ (s : State) (op : Word), fetch s = .next op → (∀ r ∈ opcodeRows, r.matches op = false) →
    transact .tick s = (.fault (.invalidOpcode op s.pc), s))

/-- The list of invalid words in R77, which the spec derives from R76, is exact. -/
def Obligations.InvalidWordsAreExactlyTheListed : Prop :=
  ∀ op : Word, (¬ ∃ i, decodeWord op = .ok i) ↔
    (op.toNat / 0x1000 = 0 ∧ op.toNat ≠ 0x00E0 ∧ op.toNat ≠ 0x00EE) ∨
    ((op.toNat / 0x1000 = 5 ∨ op.toNat / 0x1000 = 9) ∧ op.toNat % 16 ≠ 0) ∨
    (op.toNat / 0x1000 = 8 ∧ op.toNat % 16 ∈ [0x8, 0x9, 0xA, 0xB, 0xC, 0xD, 0xF]) ∨
    (op.toNat / 0x1000 = 0xE ∧ op.toNat % 256 ∉ [0x9E, 0xA1]) ∨
    (op.toNat / 0x1000 = 0xF ∧ op.toNat % 256 ∉ [0x07, 0x0A, 0x15, 0x18, 0x1E, 0x29, 0x33, 0x55, 0x65])

/-! ### The tick and the step -/

/-- R71: a fetch is valid exactly for P up to 4094 and joins the two bytes there, the first one high, odd P or even; else it
raises MemoryOutOfBounds with P, or with P + 1 when only that is outside. A valid fetch of an instruction moves PC on by 2
before the instruction runs. -/
def Obligations.FetchJoinsTwoBytesOrFaults : Prop :=
  ∀ s : State,
    (s.pc.toNat ≤ 4094 → ∃ op, fetch s = .next op ∧
      op.toNat = 256 * (s.byteAt s.pc.toNat).toNat + (s.byteAt (s.pc.toNat + 1)).toNat ∧
      ∀ i t, decodeWord op = .ok i → exec i (s.setPc (BitVec.ofNat 16 (s.pc.toNat + 2))) = .next t →
        ∃ r, serve .tick s = .next (r, t)) ∧
    (s.pc.toNat = 4095 → transact .tick s = (.fault (.memoryOutOfBounds 4096), s)) ∧
    (4096 ≤ s.pc.toNat → transact .tick s = (.fault (.memoryOutOfBounds s.pc.toNat), s))

/-- When the bytes at PC decode to `i` and the host ticks (with no command listed, or with `tick` listed next), the step is
`exec i` of that state with PC moved past the instruction and the tick taken off the schedule. -/
def Obligations.StepRunsDecodedInstruction : Prop :=
  ∀ (s : State) (i : Instr), s.runsNext i →
    (s.schedule = [] → step s = exec i (s.setPc (s.pc + 2))) ∧
    (∀ rest, s.schedule = .tick :: rest → step s = exec i ((s.setSchedule rest).setPc (s.pc + 2)))

/-- A tick that fetched an instruction runs it (30_encoding.md R70), and answers Waiting exactly where that is Fx0A with no key
pressed, and Executed otherwise (R206); an error of the instruction is the tick's error, with the state as it was (R203, the
spec's decision D2, notes/assumptions/13.md). -/
def Obligations.TickRepliesExecutedOrWaiting : Prop :=
  ∀ (s : State) (i : Instr), s.runsNext i →
    (∀ t, exec i (s.setPc (s.pc + 2)) = .next t →
      ((∃ x, i = .opFx0A x) ∧ (∀ k, s.key k = false) → transact .tick s = (.next .waiting, t)) ∧
      (¬ ((∃ x, i = .opFx0A x) ∧ ∀ k, s.key k = false) → transact .tick s = (.next .executed, t))) ∧
    (∀ e, exec i (s.setPc (s.pc + 2)) = .fault e → transact .tick s = (.fault e, s))

/-- A command that raises an error changes no state (R203, the spec's decision D2, notes/assumptions/13.md), and the same command
again raises the same error (R204). -/
def Obligations.ErrorsChangeNoState : Prop :=
  ∀ (c : HostCommand) (s : State) (e : Fault), (transact c s).1 = .fault e →
    (transact c s).2 = s ∧ transact c (transact c s).2 = (.fault e, s)

/-- The errors of a tick, each with its cause and its payload, in both directions (R200, R201, R205): a tick raises an error exactly
where one of these causes holds, and it is that error. The payloads, their order, and the whole of Vx as a key index are the
spec's decisions D4, D5, D24 and D9 (notes/assumptions/13.md). -/
def Obligations.TickErrorsAreExactlyTheListed : Prop :=
  ∀ (s : State) (e : Fault), serve .tick s = .fault e ↔
    (4094 < s.pc.toNat ∧ e = .memoryOutOfBounds (max s.pc.toNat 4096)) ∨
    (∃ op, fetch s = .next op ∧ (¬ ∃ i, decodeWord op = .ok i) ∧ e = .invalidOpcode op s.pc) ∨
    (∃ i, s.runsNext i ∧
      ((i = .op00EE ∧ s.stack = [] ∧ e = .stackUnderflow) ∨
       ((∃ nnn, i = .op2nnn nnn) ∧ 16 ≤ s.stack.length ∧ e = .stackOverflow) ∨
       (∃ x, (i = .opEx9E x ∨ i = .opExA1 x) ∧ 16 ≤ (s.reg x).toNat ∧ e = .invalidKeypadIndex (s.reg x).toNat) ∨
       (((∃ x, i = .opFx33 x ∧ 4096 ≤ s.i.toNat + 2) ∨
         (∃ x, (i = .opFx55 x ∨ i = .opFx65 x) ∧ 4096 ≤ s.i.toNat + x.val) ∨
         (∃ x y n, i = .opDxyn x y n ∧ 0 < n ∧ 4096 < s.i.toNat + n)) ∧
         e = .memoryOutOfBounds (max s.i.toNat 4096))))

/-- No instruction and no step is refused: what does not raise an error of R200 completes. -/
def Obligations.NothingIsRefused : Prop :=
  (∀ (i : Instr) (s : State) (r : Refusal), exec i s ≠ .refused r) ∧ ∀ (s : State) (r : Refusal), step s ≠ .refused r

/-! ### Control transfer (40_control.md) -/

/-- R101: 00EE takes PC from the top of the call stack; with the stack empty it raises StackUnderflow. -/
def Obligations.ReturnPopsPc : Prop :=
  IsOpcodeOf 0x00EE .op00EE ∧
  (∀ (s : State) (front : List Word) (v : Word), s.stack = front ++ [v] →
    ∃ t, exec .op00EE s = .next t ∧ t.pc = v ∧ t.stack = front ∧ ChangesOnly (fun p => p = .pc ∨ p = .stack) s t) ∧
  (∀ s : State, s.runsNext .op00EE → s.stack = [] → transact .tick s = (.fault .stackUnderflow, s))

/-- R102: 1nnn sets PC to nnn, any of the 4096, and nothing else; a jump to itself is Executed and leaves the very same state, so
every later tick executes it again. -/
def Obligations.JumpSetsPc : Prop :=
  (∀ (nnn : Nat) (s : State), nnn < 4096 →
    IsOpcodeOf (0x1000 + nnn) (.op1nnn (BitVec.ofNat 16 nnn)) ∧
    ∃ t, exec (.op1nnn (BitVec.ofNat 16 nnn)) s = .next t ∧ t.pc.toNat = nnn ∧ ChangesOnly (fun p => p = .pc) s t) ∧
  ∀ s : State, s.runsNext (.op1nnn s.pc) → transact .tick s = (.next .executed, s)

/-- R103: 2nnn pushes the post-fetch PC and jumps; with 16 entries on the stack it raises StackOverflow. -/
def Obligations.CallPushesReturnAddress : Prop :=
  ∀ (nnn : Nat) (s : State), nnn < 4096 →
    IsOpcodeOf (0x2000 + nnn) (.op2nnn (BitVec.ofNat 16 nnn)) ∧
    (s.stack.length < 16 → ∃ t, exec (.op2nnn (BitVec.ofNat 16 nnn)) s = .next t ∧ t.stack = s.stack ++ [s.pc] ∧
      t.pc.toNat = nnn ∧ ChangesOnly (fun p => p = .pc ∨ p = .stack) s t) ∧
    (s.runsNext (.op2nnn (BitVec.ofNat 16 nnn)) → s.stack.length = 16 → transact .tick s = (.fault .stackOverflow, s))

/-- A call and then a return, wherever PC and the other state went meanwhile, resume after the call with the stack as before
(95_test_vectors.md W4). -/
def Obligations.CallThenReturnResumesAfterCall : Prop :=
  ∀ (nnn : Word) (s t u : State), exec (.op2nnn nnn) s = .next t → u.stack = t.stack →
    ∃ w, exec .op00EE u = .next w ∧ w.pc = s.pc ∧ w.stack = s.stack

/-- R104, R105: the skips on a byte. The skip adds 2 to the post-fetch PC (R100). -/
def Obligations.ByteSkipsCompareVxWithKk : Prop :=
  ∀ (x : RegIdx) (kk : Byte) (s : State),
    IsOpcodeOf (0x3000 + 0x100 * x.val + kk.toNat) (.op3xkk x kk) ∧
    IsOpcodeOf (0x4000 + 0x100 * x.val + kk.toNat) (.op4xkk x kk) ∧
    (∃ t, exec (.op3xkk x kk) s = .next t ∧ (s.reg x = kk → t.pc = s.pc + 2) ∧ (s.reg x ≠ kk → t.pc = s.pc) ∧
      ChangesOnly (fun p => p = .pc) s t) ∧
    (∃ t, exec (.op4xkk x kk) s = .next t ∧ (s.reg x ≠ kk → t.pc = s.pc + 2) ∧ (s.reg x = kk → t.pc = s.pc) ∧
      ChangesOnly (fun p => p = .pc) s t)

/-- R106, R107: the skips on two registers. -/
def Obligations.RegisterSkipsCompareVxWithVy : Prop :=
  ∀ (x y : RegIdx) (s : State),
    IsOpcodeOf (0x5000 + 0x100 * x.val + 0x10 * y.val) (.op5xy0 x y) ∧
    IsOpcodeOf (0x9000 + 0x100 * x.val + 0x10 * y.val) (.op9xy0 x y) ∧
    (∃ t, exec (.op5xy0 x y) s = .next t ∧ (s.reg x = s.reg y → t.pc = s.pc + 2) ∧ (s.reg x ≠ s.reg y → t.pc = s.pc) ∧
      ChangesOnly (fun p => p = .pc) s t) ∧
    (∃ t, exec (.op9xy0 x y) s = .next t ∧ (s.reg x ≠ s.reg y → t.pc = s.pc + 2) ∧ (s.reg x = s.reg y → t.pc = s.pc) ∧
      ChangesOnly (fun p => p = .pc) s t)

/-- Bnnn jumps to the exact sum of V0 and nnn (R108), which may lie outside memory; that PC holds it without error and the next
tick raises MemoryOutOfBounds is the spec's decision D7 (notes/assumptions/13.md). -/
def Obligations.ComputedJumpAddsV0 : Prop :=
  ∀ (nnn : Nat) (s : State), nnn < 4096 →
    IsOpcodeOf (0xB000 + nnn) (.opBnnn (BitVec.ofNat 16 nnn)) ∧
    ∃ t, exec (.opBnnn (BitVec.ofNat 16 nnn)) s = .next t ∧ t.pc.toNat = (s.reg 0).toNat + nnn ∧
      ChangesOnly (fun p => p = .pc) s t ∧
      (4095 ≤ (s.reg 0).toNat + nnn →
        transact .tick t = (.fault (.memoryOutOfBounds (max ((s.reg 0).toNat + nnn) 4096)), t))

/-! ### Loads, ALU, flags, random (41_alu.md) -/

/-- R121, R123: 6xkk loads kk and 8xy0 copies Vy into Vx; VF is a register like the others here. -/
def Obligations.LoadsSetVx : Prop :=
  (∀ (x : RegIdx) (kk : Byte) (s : State), IsOpcodeOf (0x6000 + 0x100 * x.val + kk.toNat) (.op6xkk x kk) ∧
    ∃ t, exec (.op6xkk x kk) s = .next t ∧ t.reg x = kk ∧ ChangesOnly (fun p => p = .reg x) s t) ∧
  (∀ (x y : RegIdx) (s : State), IsOpcodeOf (0x8000 + 0x100 * x.val + 0x10 * y.val) (.op8xy0 x y) ∧
    ∃ t, exec (.op8xy0 x y) s = .next t ∧ t.reg x = s.reg y ∧ ChangesOnly (fun p => p = .reg x) s t)

/-- R122: 7xkk adds kk modulo 256 and records no carry: VF is unchanged unless x = 15. -/
def Obligations.AddByteWrapsWithoutFlag : Prop :=
  ∀ (x : RegIdx) (kk : Byte) (s : State),
    IsOpcodeOf (0x7000 + 0x100 * x.val + kk.toNat) (.op7xkk x kk) ∧
    ∃ t, exec (.op7xkk x kk) s = .next t ∧ (t.reg x).toNat = ((s.reg x).toNat + kk.toNat) % 256 ∧
      ChangesOnly (fun p => p = .reg x) s t

/-- R124, R125, R126: OR, AND and XOR of Vy into Vx, bit by bit; VF is not reset. -/
def Obligations.LogicOperationsActBitwise : Prop :=
  ∀ (x y : RegIdx) (s : State),
    IsOpcodeOf (0x8001 + 0x100 * x.val + 0x10 * y.val) (.op8xy1 x y) ∧
    IsOpcodeOf (0x8002 + 0x100 * x.val + 0x10 * y.val) (.op8xy2 x y) ∧
    IsOpcodeOf (0x8003 + 0x100 * x.val + 0x10 * y.val) (.op8xy3 x y) ∧
    (∃ t, exec (.op8xy1 x y) s = .next t ∧
      (∀ b < 8, (t.reg x).getLsbD b = ((s.reg x).getLsbD b || (s.reg y).getLsbD b)) ∧
      ChangesOnly (fun p => p = .reg x) s t) ∧
    (∃ t, exec (.op8xy2 x y) s = .next t ∧
      (∀ b < 8, (t.reg x).getLsbD b = ((s.reg x).getLsbD b && (s.reg y).getLsbD b)) ∧
      ChangesOnly (fun p => p = .reg x) s t) ∧
    (∃ t, exec (.op8xy3 x y) s = .next t ∧
      (∀ b < 8, (t.reg x).getLsbD b = ((s.reg x).getLsbD b ^^ (s.reg y).getLsbD b)) ∧
      ChangesOnly (fun p => p = .reg x) s t)

/-- R127: the sum modulo 256 in Vx and the carry in VF; for x = 15 the flag is what stays. -/
def Obligations.AddRegistersSetsCarry : Prop :=
  ∀ (x y : RegIdx) (s : State),
    IsOpcodeOf (0x8004 + 0x100 * x.val + 0x10 * y.val) (.op8xy4 x y) ∧
    ∃ t, exec (.op8xy4 x y) s = .next t ∧
      (x ≠ 15 → (t.reg x).toNat = ((s.reg x).toNat + (s.reg y).toNat) % 256) ∧
      (t.reg 15).toNat = (if (s.reg x).toNat + (s.reg y).toNat > 255 then 1 else 0) ∧
      ChangesOnly (fun p => p = .reg x ∨ p = .reg 15) s t

/-- R128, R130: the differences Vx - Vy and Vy - Vx modulo 256, and VF = 1 where there is no borrow. -/
def Obligations.SubtractionsSetNoBorrow : Prop :=
  ∀ (x y : RegIdx) (s : State),
    IsOpcodeOf (0x8005 + 0x100 * x.val + 0x10 * y.val) (.op8xy5 x y) ∧
    IsOpcodeOf (0x8007 + 0x100 * x.val + 0x10 * y.val) (.op8xy7 x y) ∧
    (∃ t, exec (.op8xy5 x y) s = .next t ∧
      (x ≠ 15 → ((t.reg x).toNat : Int) = (((s.reg x).toNat : Int) - (s.reg y).toNat) % 256) ∧
      (t.reg 15).toNat = (if (s.reg x).toNat ≥ (s.reg y).toNat then 1 else 0) ∧
      ChangesOnly (fun p => p = .reg x ∨ p = .reg 15) s t) ∧
    (∃ t, exec (.op8xy7 x y) s = .next t ∧
      (x ≠ 15 → ((t.reg x).toNat : Int) = (((s.reg y).toNat : Int) - (s.reg x).toNat) % 256) ∧
      (t.reg 15).toNat = (if (s.reg y).toNat ≥ (s.reg x).toNat then 1 else 0) ∧
      ChangesOnly (fun p => p = .reg x ∨ p = .reg 15) s t)

/-- R129, R131: the shifts of Vx by one, whatever y is, and the bit put out in VF. -/
def Obligations.ShiftsPutOutBitInVf : Prop :=
  ∀ (x y : RegIdx) (s : State),
    IsOpcodeOf (0x8006 + 0x100 * x.val + 0x10 * y.val) (.op8xy6 x y) ∧
    IsOpcodeOf (0x800E + 0x100 * x.val + 0x10 * y.val) (.op8xyE x y) ∧
    (∃ t, exec (.op8xy6 x y) s = .next t ∧ (x ≠ 15 → (t.reg x).toNat = (s.reg x).toNat / 2) ∧
      (t.reg 15).toNat = (s.reg x).toNat % 2 ∧ ChangesOnly (fun p => p = .reg x ∨ p = .reg 15) s t) ∧
    (∃ t, exec (.op8xyE x y) s = .next t ∧ (x ≠ 15 → (t.reg x).toNat = (s.reg x).toNat * 2 % 256) ∧
      (t.reg 15).toNat = (s.reg x).toNat / 128 ∧ ChangesOnly (fun p => p = .reg x ∨ p = .reg 15) s t)

/-- Cxkk leaves in Vx a byte masked with kk (R132), and every draw is admitted: for every byte there is a state that differs in
the random source alone and in which that byte is drawn. That draws are free is the spec's decision D12; that they are listed in
the state, one for each execution, is the model's choice (notes/assumptions/2.md). -/
def Obligations.RandomByteIsMaskedAndFree : Prop :=
  ∀ (x : RegIdx) (kk : Byte) (s : State),
    IsOpcodeOf (0xC000 + 0x100 * x.val + kk.toNat) (.opCxkk x kk) ∧
    (∃ t r, exec (.opCxkk x kk) s = .next t ∧ t.reg x = r &&& kk ∧
      (∀ d rest, s.draws = d :: rest → r = d ∧ t.draws = rest) ∧
      ChangesOnly (fun p => p = .reg x ∨ p = .rng) s t) ∧
    (∀ r : Byte, ∃ s' t, ChangesOnly (fun p => p = .rng) s s' ∧ exec (.opCxkk x kk) s' = .next t ∧ t.reg x = r &&& kk)

/-! ### The index register and memory (42_index_memory.md) -/

/-- R150, R151: Annn and Fx1E write I. Fx1E wraps modulo 65536 and sets no flag. -/
def Obligations.IndexRegisterWrites : Prop :=
  (∀ (nnn : Nat) (s : State), nnn < 4096 → IsOpcodeOf (0xA000 + nnn) (.opAnnn (BitVec.ofNat 16 nnn)) ∧
    ∃ t, exec (.opAnnn (BitVec.ofNat 16 nnn)) s = .next t ∧ t.i.toNat = nnn ∧ ChangesOnly (fun p => p = .index) s t) ∧
  (∀ (x : RegIdx) (s : State), IsOpcodeOf (0xF01E + 0x100 * x.val) (.opFx1E x) ∧
    ∃ t, exec (.opFx1E x) s = .next t ∧ t.i.toNat = (s.i.toNat + (s.reg x).toNat) % 65536 ∧
      ChangesOnly (fun p => p = .index) s t)

/-- Fx29 sets I to 5 * Vx (R152). That the whole of Vx counts, so that I = 5 * Vx for Vx of 16 and more too, is the spec's decision
D10 (notes/assumptions/13.md). -/
def Obligations.GlyphAddressIsFiveTimesVx : Prop :=
  ∀ (x : RegIdx) (s : State), IsOpcodeOf (0xF029 + 0x100 * x.val) (.opFx29 x) ∧
    ∃ t, exec (.opFx29 x) s = .next t ∧ t.i.toNat = 5 * (s.reg x).toNat ∧ ChangesOnly (fun p => p = .index) s t

/-- R154: Fx33 stores the decimal digits of Vx at I, I+1, I+2, or raises MemoryOutOfBounds with the lowest address outside
memory and writes nothing. -/
def Obligations.DecimalDigitsAreStored : Prop :=
  ∀ (x : RegIdx) (s : State),
    IsOpcodeOf (0xF033 + 0x100 * x.val) (.opFx33 x) ∧
    (s.i.toNat + 2 < 4096 → ∃ t, exec (.opFx33 x) s = .next t ∧
      (t.byteAt s.i.toNat).toNat = (s.reg x).toNat / 100 ∧
      (t.byteAt (s.i.toNat + 1)).toNat = (s.reg x).toNat / 10 % 10 ∧
      (t.byteAt (s.i.toNat + 2)).toNat = (s.reg x).toNat % 10 ∧
      ChangesOnly (fun p => ∃ k < 3, p = .byte (s.i.toNat + k)) s t) ∧
    (s.runsNext (.opFx33 x) → 4096 ≤ s.i.toNat + 2 →
      transact .tick s = (.fault (.memoryOutOfBounds (max s.i.toNat 4096)), s))

/-- Fx55 stores V0..Vx from I on, or raises MemoryOutOfBounds and writes nothing (R155). That I is unchanged is the spec's
decision D8, that the lowest address outside memory is reported D24 (notes/assumptions/13.md). -/
def Obligations.RegistersAreStoredFromI : Prop :=
  ∀ (x : RegIdx) (s : State),
    IsOpcodeOf (0xF055 + 0x100 * x.val) (.opFx55 x) ∧
    (s.i.toNat + x.val < 4096 → ∃ t, exec (.opFx55 x) s = .next t ∧
      (∀ k : RegIdx, k ≤ x → t.byteAt (s.i.toNat + k.val) = s.reg k) ∧
      ChangesOnly (fun p => ∃ k ≤ x.val, p = .byte (s.i.toNat + k)) s t) ∧
    (s.runsNext (.opFx55 x) → 4096 ≤ s.i.toNat + x.val →
      transact .tick s = (.fault (.memoryOutOfBounds (max s.i.toNat 4096)), s))

/-- R156: Fx65 loads V0..Vx from memory at I, I unchanged, or raises MemoryOutOfBounds and writes nothing. -/
def Obligations.RegistersAreLoadedFromI : Prop :=
  ∀ (x : RegIdx) (s : State),
    IsOpcodeOf (0xF065 + 0x100 * x.val) (.opFx65 x) ∧
    (s.i.toNat + x.val < 4096 → ∃ t, exec (.opFx65 x) s = .next t ∧
      (∀ k : RegIdx, k ≤ x → t.reg k = s.byteAt (s.i.toNat + k.val)) ∧
      ChangesOnly (fun p => ∃ k : RegIdx, k ≤ x ∧ p = .reg k) s t) ∧
    (s.runsNext (.opFx65 x) → 4096 ≤ s.i.toNat + x.val →
      transact .tick s = (.fault (.memoryOutOfBounds (max s.i.toNat 4096)), s))

/-- Registers stored by Fx55 come back by Fx65 with the same x, whatever the registers held meanwhile. The load reads where the
store wrote because Fx55 leaves I unchanged, which is the spec's decision D8 (R155, notes/assumptions/13.md). -/
def Obligations.StoredRegistersLoadBack : Prop :=
  ∀ (x : RegIdx) (s t : State) (v : Registers), exec (.opFx55 x) s = .next t →
    ∃ u, exec (.opFx65 x) (t.setRegs v) = .next u ∧ ∀ k : RegIdx, (k ≤ x → u.reg k = s.reg k) ∧ (x < k → u.reg k = v[k])

/-- Every byte written by Fx55, Fx33 or `load` is the byte the next fetch of its address reads, as the first and as the second of
the two (R63, R54). -/
def Obligations.WrittenBytesAreFetched : Prop :=
  (∀ (x k : RegIdx) (s t : State), exec (.opFx55 x) s = .next t → k ≤ x → FetchReads t (s.i.toNat + k.val) (s.reg k).toNat) ∧
  (∀ (x : RegIdx) (s t : State), exec (.opFx33 x) s = .next t →
    FetchReads t s.i.toNat ((s.reg x).toNat / 100) ∧ FetchReads t (s.i.toNat + 1) ((s.reg x).toNat / 10 % 10) ∧
    FetchReads t (s.i.toNat + 2) ((s.reg x).toNat % 10)) ∧
  (∀ (rom : List Byte) (s t : State) (r : Reply) (j : Nat), serve (.load rom) s = .next (r, t) → (hj : j < rom.length) →
    FetchReads t (0x200 + j) rom[j].toNat)

/-- Two memories in the canonical form that read alike at every address are the same data. The canonical form is the model's
(notes/assumptions/10.md). -/
def Obligations.CanonicalMemoriesReadingAlikeAreEqual : Prop :=
  ∀ (font : Font) (m m' : Memory), m.wf font → m'.wf font → (∀ a, m.read font a = m'.read font a) → m = m'

/-! ### The framebuffer (43_display.md) -/

/-- R170: 00E0 clears every pixel; VF is unchanged. -/
def Obligations.ClearTurnsEveryPixelOff : Prop :=
  IsOpcodeOf 0x00E0 .op00E0 ∧
  ∀ s : State, ∃ t, exec .op00E0 s = .next t ∧ (∀ c r, t.fb.pixel c r = false) ∧
    ChangesOnly (fun p => ∃ c r, p = .pixel c r) s t

/-- R172: Dxyn toggles exactly the pixels that a 1 bit of the sprite lands on, both coordinates wrapped, and VF is 1 where one
of them was set before and else 0; a sprite that reaches outside memory raises MemoryOutOfBounds. n = 0 draws nothing and is
never out of bounds. -/
def Obligations.DrawTogglesSpritePixels : Prop :=
  ∀ (x y : RegIdx) (n : Nat) (s : State), n < 16 →
    IsOpcodeOf (0xD000 + 0x100 * x.val + 0x10 * y.val + n) (.opDxyn x y n) ∧
    (n = 0 ∨ s.i.toNat + n ≤ 4096 → ∃ t, exec (.opDxyn x y n) s = .next t ∧
      (∀ c r, SpriteCovers s x y n c r → t.fb.pixel c r = !s.fb.pixel c r) ∧
      ((∃ c r, SpriteCovers s x y n c r ∧ s.fb.pixel c r = true) → t.reg 15 = 1) ∧
      ((∀ c r, SpriteCovers s x y n c r → s.fb.pixel c r = false) → t.reg 15 = 0) ∧
      ChangesOnly (fun p => p = .reg 15 ∨ ∃ c r, p = .pixel c r ∧ SpriteCovers s x y n c r) s t) ∧
    (s.runsNext (.opDxyn x y n) → 0 < n → 4096 < s.i.toNat + n →
      transact .tick s = (.fault (.memoryOutOfBounds (max s.i.toNat 4096)), s))

/-- Drawing the same sprite twice at the same place restores the framebuffer (R173), and the second draw gives VF = 1 exactly
when some pixel under a 1 bit of the sprite was off before the first. The place is the same where neither coordinate register is
VF, which the first draw writes. R173 says "exactly when the sprite has any 1 bit", which is so only where not all of those
pixels were set; by R172 a pixel set at first is off after one draw and no collision in the second
(notes/assumptions/14.md). That the second draw reads the same bytes rests on I being unchanged by the first, which R173 derives
and R153 marks as the spec's decision D8 (notes/assumptions/13.md). -/
def Obligations.RedrawRestoresFramebuffer : Prop :=
  ∀ (x y : RegIdx) (n : Nat) (s t : State), n < 16 → x ≠ 15 → y ≠ 15 → exec (.opDxyn x y n) s = .next t →
    ∃ u, exec (.opDxyn x y n) t = .next u ∧ u.fb = s.fb ∧
      ((∃ c r, SpriteCovers s x y n c r ∧ s.fb.pixel c r = false) → u.reg 15 = 1) ∧
      ((∀ c r, SpriteCovers s x y n c r → s.fb.pixel c r = true) → u.reg 15 = 0)

/-! ### Keypad and timer instructions (44_keypad_timers.md) -/

/-- The skips on the key numbered Vx (R185, R186). That the whole of Vx counts, and 16 or more raises InvalidKeypadIndex, is the
spec's decision D9 (notes/assumptions/13.md). -/
def Obligations.KeySkipsTestKeyVx : Prop :=
  ∀ (x : RegIdx) (s : State),
    IsOpcodeOf (0xE09E + 0x100 * x.val) (.opEx9E x) ∧ IsOpcodeOf (0xE0A1 + 0x100 * x.val) (.opExA1 x) ∧
    (∀ k : Fin 16, (s.reg x).toNat = k.val →
      (∃ t, exec (.opEx9E x) s = .next t ∧ (s.key k = true → t.pc = s.pc + 2) ∧ (s.key k = false → t.pc = s.pc) ∧
        ChangesOnly (fun p => p = .pc) s t) ∧
      (∃ t, exec (.opExA1 x) s = .next t ∧ (s.key k = false → t.pc = s.pc + 2) ∧ (s.key k = true → t.pc = s.pc) ∧
        ChangesOnly (fun p => p = .pc) s t)) ∧
    (s.runsNext (.opEx9E x) ∨ s.runsNext (.opExA1 x) → 16 ≤ (s.reg x).toNat →
      transact .tick s = (.fault (.invalidKeypadIndex (s.reg x).toNat), s))

/-- R187: Fx0A puts the lowest-numbered pressed key in Vx; with no key pressed PC goes back by 2 and nothing else changes, so
that the tick leaves the very same state and answers Waiting. -/
def Obligations.KeyWaitTakesLowestKeyOrRepeats : Prop :=
  ∀ (x : RegIdx) (s : State),
    IsOpcodeOf (0xF00A + 0x100 * x.val) (.opFx0A x) ∧
    (∀ k : Fin 16, s.key k = true → (∀ j < k, s.key j = false) →
      (∃ t, exec (.opFx0A x) s = .next t ∧ (t.reg x).toNat = k.val ∧ ChangesOnly (fun p => p = .reg x) s t) ∧
      (s.runsNext (.opFx0A x) → (transact .tick s).1 = .next .executed)) ∧
    ((∀ k, s.key k = false) →
      (∃ t, exec (.opFx0A x) s = .next t ∧ t.pc = s.pc - 2 ∧ ChangesOnly (fun p => p = .pc) s t) ∧
      (s.runsNext (.opFx0A x) → transact .tick s = (.next .waiting, s)))

/-- R188, R189, R190: Fx07 reads DT, Fx15 writes DT, Fx18 writes ST; after Fx18 the next `tick_timers` signals tone end exactly
where Vx was 1. -/
def Obligations.TimerTransfers : Prop :=
  ∀ (x : RegIdx) (s : State),
    IsOpcodeOf (0xF007 + 0x100 * x.val) (.opFx07 x) ∧ IsOpcodeOf (0xF015 + 0x100 * x.val) (.opFx15 x) ∧
    IsOpcodeOf (0xF018 + 0x100 * x.val) (.opFx18 x) ∧
    (∃ t, exec (.opFx07 x) s = .next t ∧ t.reg x = s.dt ∧ ChangesOnly (fun p => p = .reg x) s t) ∧
    (∃ t, exec (.opFx15 x) s = .next t ∧ t.dt = s.reg x ∧ ChangesOnly (fun p => p = .delay) s t) ∧
    (∃ t, exec (.opFx18 x) s = .next t ∧ t.st = s.reg x ∧ ChangesOnly (fun p => p = .sound) s t ∧
      ∃ signal u, serve .tickTimers t = .next (.toneEnd signal, u) ∧ (signal = true ↔ (s.reg x).toNat = 1))

/-! ### The host's commands (10_state.md R39) -/

/-- `load` copies the ROM to memory from 0x200; a ROM of more than 3584 bytes is an error (R57). That nothing else changes, that
nothing is written on error, and the address 0x1000 it reports, are the spec's decision D15 (notes/assumptions/13.md). -/
def Obligations.LoadCopiesRom : Prop :=
  ∀ (rom : List Byte) (s : State),
    (rom.length ≤ 3584 → ∃ t, serve (.load rom) s = .next (.done, t) ∧
      (∀ (j : Nat) (_ : j < rom.length), t.byteAt (0x200 + j) = rom[j]) ∧
      ChangesOnly (fun p => ∃ j < rom.length, p = .byte (0x200 + j)) s t) ∧
    (3584 < rom.length → transact (.load rom) s = (.fault (.memoryOutOfBounds 0x1000), s))

/-- `reset`, from any state, and construction give the same state (R38, R240, R242): every register, timer and byte above the
font 0, the font at 0x000 to 0x04F whatever its bytes are, PC 0x200, the stack empty, every pixel off, every key released. I and
the keys are the spec's decision D13, PC after construction D14 (notes/assumptions/13.md); that reset keeps the parameter fields is
the model's choice (notes/assumptions/11.md). -/
def Obligations.ResetGivesStatedValues : Prop :=
  ∀ s : State, ∃ t, serve .reset s = .next (.done, t) ∧ t = State.construct s.font s.schedule s.draws s.drawCount ∧
    (∀ k, t.reg k = 0) ∧ t.pc = 0x200 ∧ t.i = 0 ∧ t.stack = [] ∧ t.dt = 0 ∧ t.st = 0 ∧
    (∀ (a : Nat) (_ : a < 80), t.byteAt a = s.font[a]) ∧ (∀ a, 80 ≤ a → a < 4096 → t.byteAt a = 0) ∧
    (∀ c r, t.fb.pixel c r = false) ∧ (∀ k, t.key k = false) ∧
    ChangesOnly (fun p => p ≠ .font ∧ p ≠ .schedule ∧ p ≠ .rng) s t

/-- R220: `tick_timers` counts each timer down by one, never below 0, and signals tone end exactly where ST was 1. -/
def Obligations.TimersCountDownAndSignalToneEnd : Prop :=
  ∀ s : State, ∃ t signal, serve .tickTimers s = .next (.toneEnd signal, t) ∧
    (signal = true ↔ s.st.toNat = 1) ∧
    t.dt.toNat = (if s.dt.toNat > 0 then s.dt.toNat - 1 else 0) ∧
    t.st.toNat = (if s.st.toNat > 0 then s.st.toNat - 1 else 0) ∧
    ChangesOnly (fun p => p = .delay ∨ p = .sound) s t

/-- R225, R226, R227: the keypad commands, for every natural number as a key index. -/
def Obligations.KeypadCommandsSetClearQuery : Prop :=
  ∀ (k : Nat) (s : State),
    ((h : k < 16) →
      (∃ t, serve (.press k) s = .next (.done, t) ∧ t.key ⟨k, h⟩ = true ∧ ChangesOnly (fun p => p = .key ⟨k, h⟩) s t) ∧
      (∃ t, serve (.release k) s = .next (.done, t) ∧ t.key ⟨k, h⟩ = false ∧ ChangesOnly (fun p => p = .key ⟨k, h⟩) s t) ∧
      serve (.isPressed k) s = .next (.keyState (s.key ⟨k, h⟩), s)) ∧
    (16 ≤ k →
      transact (.press k) s = (.fault (.invalidKeypadIndex k), s) ∧
      transact (.release k) s = (.fault (.invalidKeypadIndex k), s) ∧
      transact (.isPressed k) s = (.fault (.invalidKeypadIndex k), s))

/-- R175: `display` gives the framebuffer and changes nothing; and after 00E0 it gives the all-false grid (95_test_vectors.md
W3). -/
def Obligations.DisplayShowsFramebuffer : Prop :=
  (∀ s : State, serve .display s = .next (.grid s.fb, s)) ∧
  ∀ s t : State, exec .op00E0 s = .next t →
    ∃ fb, serve .display t = .next (.grid fb, t) ∧ ∀ c r, fb.pixel c r = false

/-- A step with a command listed serves that command and takes it off the schedule; commands come one at a time, in order
(R41). How the schedule is held, and that a listed command that raises an error ends the step with it, are the model's choices
(notes/assumptions/3.md and 12.md; 4.md for an error as the fault outcome). -/
def Obligations.StepServesListedCommand : Prop :=
  ∀ (s : State) (c : HostCommand) (rest : List HostCommand), s.schedule = c :: rest →
    (∀ r t, serve c (s.setSchedule rest) = .next (r, t) → step s = .next t ∧ t.schedule = rest) ∧
    (∀ e, serve c (s.setSchedule rest) = .fault e → step s = .fault e)

/-! ### Whole-machine rules -/

/-- Which instructions write which part (R23, R25, R27, R28, R29, R32, R34, R56, R132, R174): a part that an instruction changed
names the instruction. A register is changed as Vx, as VF by the flag instructions, or as one of V0..Vx; PC, which is the
post-fetch PC before (R24), by the instructions R25 lists; memory by the writing accesses of R56; the random source by the draw of
Cxkk (R8, R132). No instruction writes a key, the font or the schedule. That the parameters FONT, RNG and SCHEDULE are fields of the
state is the model's choice (notes/assumptions/1.md, 2.md and 3.md). -/
def Obligations.EachPartHasItsWriters : Prop :=
  ∀ (i : Instr) (s t : State), exec i s = .next t →
    (∀ k, t.reg k ≠ s.reg k →
      (∃ kk, i = .op6xkk k kk ∨ i = .op7xkk k kk ∨ i = .opCxkk k kk) ∨
      (∃ y, i = .op8xy0 k y ∨ i = .op8xy1 k y ∨ i = .op8xy2 k y ∨ i = .op8xy3 k y) ∨
      (∃ x y, (i = .op8xy4 x y ∨ i = .op8xy5 x y ∨ i = .op8xy6 x y ∨ i = .op8xy7 x y ∨ i = .op8xyE x y) ∧ (k = x ∨ k = 15)) ∨
      (∃ x y n, i = .opDxyn x y n ∧ k = 15) ∨
      i = .opFx07 k ∨ (i = .opFx0A k ∧ ∃ j, s.key j = true) ∨ ∃ x, i = .opFx65 x ∧ k ≤ x) ∧
    (t.pc ≠ s.pc →
      i = .op00EE ∨ (∃ nnn, i = .op1nnn nnn ∨ i = .op2nnn nnn ∨ i = .opBnnn nnn) ∨
      (∃ x kk, i = .op3xkk x kk ∨ i = .op4xkk x kk) ∨ (∃ x y, i = .op5xy0 x y ∨ i = .op9xy0 x y) ∨
      (∃ x, i = .opEx9E x ∨ i = .opExA1 x) ∨ ∃ x, i = .opFx0A x ∧ ∀ j, s.key j = false) ∧
    (t.stack ≠ s.stack → i = .op00EE ∨ ∃ nnn, i = .op2nnn nnn) ∧
    (t.i ≠ s.i → (∃ nnn, i = .opAnnn nnn) ∨ ∃ x, i = .opFx1E x ∨ i = .opFx29 x) ∧
    (t.dt ≠ s.dt → ∃ x, i = .opFx15 x) ∧
    (t.st ≠ s.st → ∃ x, i = .opFx18 x) ∧
    (t.fb ≠ s.fb → i = .op00E0 ∨ ∃ x y n, i = .opDxyn x y n) ∧
    (t.mem ≠ s.mem → ∃ x, i = .opFx33 x ∨ i = .opFx55 x) ∧
    (¬ (t.draws = s.draws ∧ t.drawCount = s.drawCount) → ∃ x kk, i = .opCxkk x kk) ∧
    t.keys = s.keys ∧ t.font = s.font ∧ t.schedule = s.schedule

/-- No instruction writes VF as a side effect but the six flag instructions (R37): an instruction that changed VF is one of
them or names VF as the register it writes. -/
def Obligations.OnlyFlagInstructionsWriteVfUnasked : Prop :=
  ∀ (i : Instr) (s t : State), exec i s = .next t → t.reg 15 ≠ s.reg 15 →
    (∃ x y, i = .op8xy4 x y ∨ i = .op8xy5 x y ∨ i = .op8xy6 x y ∨ i = .op8xy7 x y ∨ i = .op8xyE x y) ∨
    (∃ x y n, i = .opDxyn x y n) ∨
    (∃ kk, i = .op6xkk 15 kk ∨ i = .op7xkk 15 kk ∨ i = .opCxkk 15 kk) ∨
    (∃ y, i = .op8xy0 15 y ∨ i = .op8xy1 15 y ∨ i = .op8xy2 15 y ∨ i = .op8xy3 15 y) ∨
    i = .opFx07 15 ∨ i = .opFx0A 15 ∨ i = .opFx65 15

/-- No instruction reads ST (R29): with another value in ST, every instruction ends alike, and the two next states differ in ST
alone. -/
def Obligations.NoInstructionReadsSoundTimer : Prop :=
  ∀ (i : Instr) (s : State) (b : Byte),
    (∀ t, exec i s = .next t → ∃ t', exec i (s.setSt b) = .next t' ∧ ChangesOnly (fun p => p = .sound) t t') ∧
    (∀ e, exec i s = .fault e → exec i (s.setSt b) = .fault e)

/-- R34: only Ex9E, ExA1 and Fx0A read the keypad, and no instruction writes a key: with a key in another state, every other
instruction ends alike, and the next states differ in that key alone. -/
def Obligations.OnlyKeyInstructionsReadKeypad : Prop :=
  ∀ (i : Instr) (s : State),
    (∀ t, exec i s = .next t → ∀ k, t.key k = s.key k) ∧
    ∀ (k : Fin 16) (b : Bool), (∀ x, i ≠ .opEx9E x ∧ i ≠ .opExA1 x ∧ i ≠ .opFx0A x) →
      (∀ t, exec i s = .next t → ∃ t', exec i (s.setKey k b) = .next t' ∧ ChangesOnly (fun p => p = .key k) t t') ∧
      (∀ e, exec i s = .fault e → exec i (s.setKey k b) = .fault e)

/-- A wait for a key that nobody presses, and a jump to itself, repeat for ever, in the same state, while the host only ticks
(R187, R245, R102; 93_implementation_defined.md U8). -/
def Obligations.KeyWaitAndSelfJumpRepeatForever : Prop :=
  ∀ (s : State) (n : Nat), s.schedule = [] →
    (∀ x, s.runsNext (.opFx0A x) → (∀ k, s.key k = false) → Sys2Proof.core.run n s = .next s) ∧
    (s.runsNext (.op1nnn s.pc) → Sys2Proof.core.run n s = .next s)

/-! ### The invariant -/

/-- The state after reset meets the invariant, whatever the parameters are. -/
def Obligations.ResetMeetsInvariant : Prop :=
  State.reset.Inv ∧ ∀ font schedule draws n, (State.construct font schedule draws n).Inv

/-- Every step, whichever command of the host it serves, keeps the invariant: memory in its canonical form, at most 16 return
addresses, each in 2..4096, and PC at most 0x10FE (R26, R27). -/
def Obligations.EveryStepKeepsInvariant : Prop :=
  ∀ s t : State, s.Inv → step s = .next t → t.Inv
end

