-- ==== Sys2Proof/Laws/Decode.lean ====
section
/-! SUPPORT. The fields of an opcode as numbers, the fields of an encoded instruction, and the masks of 30_encoding.md R76 as
fields. -/

namespace Sys2Proof

/-! ### Fields as numbers (R72) -/

theorem extractLsb_toNat {w : Nat} (op : BitVec w) (hi lo : Nat) :
    (op.extractLsb hi lo).toNat = op.toNat / 2 ^ lo % 2 ^ (hi - lo + 1) := by
  simp [BitVec.extractLsb, BitVec.extractLsb'_toNat, Nat.shiftRight_eq_div_pow]

theorem nibble1_eq (op : Word) : nibble1 op = op.toNat / 4096 := by
  have := op.isLt
  rw [nibble1, extractLsb_toNat]
  omega

theorem fieldX_val (op : Word) : (fieldX op).val = op.toNat / 256 % 16 := by
  rw [fieldX, extractLsb_toNat, Fin.ofNat]
  show op.toNat / 256 % 16 % 16 = _
  omega

theorem fieldY_val (op : Word) : (fieldY op).val = op.toNat / 16 % 16 := by
  rw [fieldY, extractLsb_toNat, Fin.ofNat]
  show op.toNat / 16 % 16 % 16 = _
  omega

theorem fieldN_eq (op : Word) : fieldN op = op.toNat % 16 := by
  rw [fieldN, extractLsb_toNat]
  omega

theorem fieldKK_toNat (op : Word) : (fieldKK op).toNat = op.toNat % 256 := by
  show (op.extractLsb 7 0).toNat = _
  rw [extractLsb_toNat]
  omega

theorem fieldNNN_toNat (op : Word) : (fieldNNN op).toNat = op.toNat % 4096 := by
  rw [fieldNNN, BitVec.toNat_setWidth, extractLsb_toNat]
  omega

/-- Two bytes joined, the first one high (20_memory.md R54). -/
theorem joinBytes_toNat (hi lo : Byte) : (joinBytes hi lo).toNat = hi.toNat * 256 + lo.toNat := by
  have := lo.isLt
  show (hi ++ lo).toNat = _
  rw [BitVec.toNat_append, ← Nat.shiftLeft_add_eq_or_of_lt this, Nat.shiftLeft_eq]

theorem joinBytes_wordBytes (op : Word) : joinBytes (op.extractLsb 15 8) (op.extractLsb 7 0) = op := by
  apply BitVec.eq_of_toNat_eq
  have h1 : (op.extractLsb 15 8).toNat = op.toNat / 256 % 256 := extractLsb_toNat op 15 8
  have h2 : (op.extractLsb 7 0).toNat = op.toNat / 1 % 256 := extractLsb_toNat op 7 0
  have := op.isLt
  rw [joinBytes_toNat, h1, h2]
  omega

/-- The decoder reads from bytes what `decodeWord` reads from the word. -/
theorem decode_wordBytes (op : Word) (rest : List Byte) :
    decode (wordBytes op ++ rest) = (decodeWord op).map fun i => (i, rest) := by
  show decode (op.extractLsb 15 8 :: op.extractLsb 7 0 :: rest) = _
  rw [decode, joinBytes_wordBytes]
  cases decodeWord op <;> rfl

/-! ### Fields of the formats (R73) -/

theorem formatA_toNat {o : Nat} {nnn : Word} (ho : o < 16) (hn : nnn.toNat < 4096) :
    (formatA o nnn).toNat = 4096 * o + nnn.toNat := by
  rw [formatA, BitVec.toNat_ofNat]
  omega

theorem formatXK_toNat {o : Nat} (x : RegIdx) (kk : Byte) (ho : o < 16) :
    (formatXK o x kk).toNat = 4096 * o + 256 * x.val + kk.toNat := by
  have := x.isLt
  have := kk.isLt
  rw [formatXK, BitVec.toNat_ofNat]
  omega

theorem formatXYN_toNat {o n : Nat} (x y : RegIdx) (ho : o < 16) (hn : n < 16) :
    (formatXYN o x y n).toNat = 4096 * o + 256 * x.val + 16 * y.val + n := by
  have := x.isLt
  have := y.isLt
  rw [formatXYN, BitVec.toNat_ofNat]
  omega

section FormatA
variable {o : Nat} {nnn : Word} (ho : o < 16) (hn : nnn.toNat < 4096)
include ho hn

theorem nibble1_formatA : nibble1 (formatA o nnn) = o := by
  rw [nibble1_eq, formatA_toNat ho hn]
  omega

theorem fieldNNN_formatA : fieldNNN (formatA o nnn) = nnn := by
  apply BitVec.eq_of_toNat_eq
  rw [fieldNNN_toNat, formatA_toNat ho hn]
  omega

end FormatA

section FormatXK
variable {o : Nat} (x : RegIdx) (kk : Byte) (ho : o < 16)
include ho

theorem nibble1_formatXK : nibble1 (formatXK o x kk) = o := by
  have := x.isLt
  have := kk.isLt
  rw [nibble1_eq, formatXK_toNat x kk ho]
  omega

theorem fieldX_formatXK : fieldX (formatXK o x kk) = x := by
  have := kk.isLt
  apply Fin.ext
  rw [fieldX_val, formatXK_toNat x kk ho]
  omega

theorem fieldKK_formatXK : fieldKK (formatXK o x kk) = kk := by
  have := kk.isLt
  apply BitVec.eq_of_toNat_eq
  rw [fieldKK_toNat, formatXK_toNat x kk ho]
  omega

end FormatXK

section FormatXYN
variable {o n : Nat} (x y : RegIdx) (ho : o < 16) (hn : n < 16)
include ho hn

theorem nibble1_formatXYN : nibble1 (formatXYN o x y n) = o := by
  have := x.isLt
  have := y.isLt
  rw [nibble1_eq, formatXYN_toNat x y ho hn]
  omega

theorem fieldX_formatXYN : fieldX (formatXYN o x y n) = x := by
  have := y.isLt
  apply Fin.ext
  rw [fieldX_val, formatXYN_toNat x y ho hn]
  omega

theorem fieldY_formatXYN : fieldY (formatXYN o x y n) = y := by
  apply Fin.ext
  rw [fieldY_val, formatXYN_toNat x y ho hn]
  omega

theorem fieldN_formatXYN : fieldN (formatXYN o x y n) = n := by
  rw [fieldN_eq, formatXYN_toNat x y ho hn]
  omega

end FormatXYN

/-! ### Masks as fields (R76) -/

/-- A mask that keeps the major opcode and the `k` low bits, as division and remainder. -/
theorem and_mask_toNat (op m : Word) (k : Nat) (hk : k ≤ 12)
    (hm : ∀ j < 16, m.toNat.testBit j = (decide (12 ≤ j) || decide (j < k))) :
    (op &&& m).toNat = op.toNat / 4096 * 4096 + op.toNat % 2 ^ k := by
  have hr : op.toNat % 2 ^ k < 2 ^ 12 :=
    lt_of_lt_of_le (Nat.mod_lt _ (Nat.two_pow_pos k)) (Nat.pow_le_pow_right (by decide) hk)
  have hq : op.toNat / 4096 * 4096 = (op.toNat >>> 12) <<< 12 := by
    rw [Nat.shiftRight_eq_div_pow, Nat.shiftLeft_eq]
  rw [hq, Nat.shiftLeft_add_eq_or_of_lt hr, BitVec.toNat_and]
  apply Nat.eq_of_testBit_eq
  intro j
  by_cases hj : j < 16
  · rw [Nat.testBit_and, hm j hj, Nat.testBit_or, Nat.testBit_shiftLeft, Nat.testBit_shiftRight, Nat.testBit_mod_two_pow]
    by_cases h12 : 12 ≤ j
    · simp [h12, Nat.add_sub_cancel' h12, show ¬ j < k by omega]
    · simp [h12, Bool.and_comm]
  · have hf : op.toNat.testBit j = false :=
      Nat.testBit_lt_two_pow (lt_of_lt_of_le op.isLt (Nat.pow_le_pow_right (by decide) (not_lt.mp hj)))
    have h12 : 12 ≤ j := by omega
    simp [hf, Nat.testBit_shiftLeft, Nat.testBit_shiftRight, Nat.testBit_mod_two_pow, Nat.add_sub_cancel' h12]

theorem and_F000_toNat (op : Word) : (op &&& 0xF000).toNat = op.toNat / 4096 * 4096 := by
  simpa [Nat.mod_one] using and_mask_toNat op 0xF000 0 (by decide) (by decide)

theorem and_F00F_toNat (op : Word) : (op &&& 0xF00F).toNat = op.toNat / 4096 * 4096 + op.toNat % 16 :=
  and_mask_toNat op 0xF00F 4 (by decide) (by decide)

theorem and_F0FF_toNat (op : Word) : (op &&& 0xF0FF).toNat = op.toNat / 4096 * 4096 + op.toNat % 256 :=
  and_mask_toNat op 0xF0FF 8 (by decide) (by decide)

theorem matches_F000 (p op : Word) :
    (OpcodeRow.mk 0xF000 p).matches op = true ↔ op.toNat / 4096 * 4096 = p.toNat := by
  rw [OpcodeRow.matches, beq_iff_eq, ← BitVec.toNat_inj, and_F000_toNat]

theorem matches_F00F (p op : Word) :
    (OpcodeRow.mk 0xF00F p).matches op = true ↔ op.toNat / 4096 * 4096 + op.toNat % 16 = p.toNat := by
  rw [OpcodeRow.matches, beq_iff_eq, ← BitVec.toNat_inj, and_F00F_toNat]

theorem matches_F0FF (p op : Word) :
    (OpcodeRow.mk 0xF0FF p).matches op = true ↔ op.toNat / 4096 * 4096 + op.toNat % 256 = p.toNat := by
  rw [OpcodeRow.matches, beq_iff_eq, ← BitVec.toNat_inj, and_F0FF_toNat]

theorem matches_FFFF (p op : Word) : (OpcodeRow.mk 0xFFFF p).matches op = true ↔ op = p := by
  have h : op &&& 0xFFFF = op := BitVec.and_allOnes
  rw [OpcodeRow.matches, beq_iff_eq, h]

/-! ### What the decoder gives is well formed (R74) -/

/-- Every decoded instruction is well formed. -/
theorem decodeWord_wellFormed {op : Word} {i : Instr} (h : decodeWord op = .ok i) : i.wellFormed = true := by
  have hN : (fieldNNN op).toNat < 4096 := by rw [fieldNNN_toNat]; omega
  have hn : fieldN op < 16 := by rw [fieldN_eq]; omega
  unfold decodeWord at h
  split at h
  case h_1 => unfold decodeZ at h; split at h <;> first | cases h; rfl | (split at h <;> cases h; rfl)
  case h_9 => unfold decodeAlu at h; split at h <;> cases h <;> rfl
  case h_15 => unfold decodeKey at h; split at h <;> cases h <;> rfl
  case h_16 => unfold decodeMisc at h; split at h <;> cases h <;> rfl
  case h_6 => split at h <;> cases h; rfl
  case h_10 => split at h <;> cases h; rfl
  all_goals cases h
  all_goals first | rfl | exact decide_eq_true hN | exact decide_eq_true hn

end Sys2Proof
end

