-- ==== Sys2Proof/Laws/State.lean ====
section
/-! SUPPORT. What every update of the state does to every field and to every accessor. -/

namespace Sys2Proof.Machine

variable (s : State)

/-! ### `setReg` -/

@[simp] theorem State.setReg_v (x : RegIdx) (b : Byte) : (s.setReg x b).v = s.v.set x b := rfl
@[simp] theorem State.setReg_pc (x : RegIdx) (b : Byte) : (s.setReg x b).pc = s.pc := rfl
@[simp] theorem State.setReg_i (x : RegIdx) (b : Byte) : (s.setReg x b).i = s.i := rfl
@[simp] theorem State.setReg_stack (x : RegIdx) (b : Byte) : (s.setReg x b).stack = s.stack := rfl
@[simp] theorem State.setReg_dt (x : RegIdx) (b : Byte) : (s.setReg x b).dt = s.dt := rfl
@[simp] theorem State.setReg_st (x : RegIdx) (b : Byte) : (s.setReg x b).st = s.st := rfl
@[simp] theorem State.setReg_mem (x : RegIdx) (b : Byte) : (s.setReg x b).mem = s.mem := rfl
@[simp] theorem State.setReg_fb (x : RegIdx) (b : Byte) : (s.setReg x b).fb = s.fb := rfl
@[simp] theorem State.setReg_keys (x : RegIdx) (b : Byte) : (s.setReg x b).keys = s.keys := rfl
@[simp] theorem State.setReg_font (x : RegIdx) (b : Byte) : (s.setReg x b).font = s.font := rfl
@[simp] theorem State.setReg_schedule (x : RegIdx) (b : Byte) : (s.setReg x b).schedule = s.schedule := rfl
@[simp] theorem State.setReg_draws (x : RegIdx) (b : Byte) : (s.setReg x b).draws = s.draws := rfl
@[simp] theorem State.setReg_drawCount (x : RegIdx) (b : Byte) : (s.setReg x b).drawCount = s.drawCount := rfl
@[simp] theorem State.setReg_byteAt (x : RegIdx) (b : Byte) (n : Nat) : (s.setReg x b).byteAt n = s.byteAt n := rfl
@[simp] theorem State.setReg_key (x : RegIdx) (b : Byte) (k : Fin 16) : (s.setReg x b).key k = s.key k := rfl

/-! ### `setRegs` -/

@[simp] theorem State.setRegs_v (v : Registers) : (s.setRegs v).v = v := rfl
@[simp] theorem State.setRegs_pc (v : Registers) : (s.setRegs v).pc = s.pc := rfl
@[simp] theorem State.setRegs_i (v : Registers) : (s.setRegs v).i = s.i := rfl
@[simp] theorem State.setRegs_stack (v : Registers) : (s.setRegs v).stack = s.stack := rfl
@[simp] theorem State.setRegs_dt (v : Registers) : (s.setRegs v).dt = s.dt := rfl
@[simp] theorem State.setRegs_st (v : Registers) : (s.setRegs v).st = s.st := rfl
@[simp] theorem State.setRegs_mem (v : Registers) : (s.setRegs v).mem = s.mem := rfl
@[simp] theorem State.setRegs_fb (v : Registers) : (s.setRegs v).fb = s.fb := rfl
@[simp] theorem State.setRegs_keys (v : Registers) : (s.setRegs v).keys = s.keys := rfl
@[simp] theorem State.setRegs_font (v : Registers) : (s.setRegs v).font = s.font := rfl
@[simp] theorem State.setRegs_schedule (v : Registers) : (s.setRegs v).schedule = s.schedule := rfl
@[simp] theorem State.setRegs_draws (v : Registers) : (s.setRegs v).draws = s.draws := rfl
@[simp] theorem State.setRegs_drawCount (v : Registers) : (s.setRegs v).drawCount = s.drawCount := rfl
@[simp] theorem State.setRegs_byteAt (v : Registers) (n : Nat) : (s.setRegs v).byteAt n = s.byteAt n := rfl
@[simp] theorem State.setRegs_key (v : Registers) (k : Fin 16) : (s.setRegs v).key k = s.key k := rfl

/-! ### `setPc` -/

@[simp] theorem State.setPc_v (p : Word) : (s.setPc p).v = s.v := rfl
@[simp] theorem State.setPc_pc (p : Word) : (s.setPc p).pc = p := rfl
@[simp] theorem State.setPc_i (p : Word) : (s.setPc p).i = s.i := rfl
@[simp] theorem State.setPc_stack (p : Word) : (s.setPc p).stack = s.stack := rfl
@[simp] theorem State.setPc_dt (p : Word) : (s.setPc p).dt = s.dt := rfl
@[simp] theorem State.setPc_st (p : Word) : (s.setPc p).st = s.st := rfl
@[simp] theorem State.setPc_mem (p : Word) : (s.setPc p).mem = s.mem := rfl
@[simp] theorem State.setPc_fb (p : Word) : (s.setPc p).fb = s.fb := rfl
@[simp] theorem State.setPc_keys (p : Word) : (s.setPc p).keys = s.keys := rfl
@[simp] theorem State.setPc_font (p : Word) : (s.setPc p).font = s.font := rfl
@[simp] theorem State.setPc_schedule (p : Word) : (s.setPc p).schedule = s.schedule := rfl
@[simp] theorem State.setPc_draws (p : Word) : (s.setPc p).draws = s.draws := rfl
@[simp] theorem State.setPc_drawCount (p : Word) : (s.setPc p).drawCount = s.drawCount := rfl
@[simp] theorem State.setPc_reg (p : Word) (k : RegIdx) : (s.setPc p).reg k = s.reg k := rfl
@[simp] theorem State.setPc_byteAt (p : Word) (n : Nat) : (s.setPc p).byteAt n = s.byteAt n := rfl
@[simp] theorem State.setPc_key (p : Word) (k : Fin 16) : (s.setPc p).key k = s.key k := rfl

/-! ### `setI` -/

@[simp] theorem State.setI_v (a : Word) : (s.setI a).v = s.v := rfl
@[simp] theorem State.setI_pc (a : Word) : (s.setI a).pc = s.pc := rfl
@[simp] theorem State.setI_i (a : Word) : (s.setI a).i = a := rfl
@[simp] theorem State.setI_stack (a : Word) : (s.setI a).stack = s.stack := rfl
@[simp] theorem State.setI_dt (a : Word) : (s.setI a).dt = s.dt := rfl
@[simp] theorem State.setI_st (a : Word) : (s.setI a).st = s.st := rfl
@[simp] theorem State.setI_mem (a : Word) : (s.setI a).mem = s.mem := rfl
@[simp] theorem State.setI_fb (a : Word) : (s.setI a).fb = s.fb := rfl
@[simp] theorem State.setI_keys (a : Word) : (s.setI a).keys = s.keys := rfl
@[simp] theorem State.setI_font (a : Word) : (s.setI a).font = s.font := rfl
@[simp] theorem State.setI_schedule (a : Word) : (s.setI a).schedule = s.schedule := rfl
@[simp] theorem State.setI_draws (a : Word) : (s.setI a).draws = s.draws := rfl
@[simp] theorem State.setI_drawCount (a : Word) : (s.setI a).drawCount = s.drawCount := rfl
@[simp] theorem State.setI_reg (a : Word) (k : RegIdx) : (s.setI a).reg k = s.reg k := rfl
@[simp] theorem State.setI_byteAt (a : Word) (n : Nat) : (s.setI a).byteAt n = s.byteAt n := rfl
@[simp] theorem State.setI_key (a : Word) (k : Fin 16) : (s.setI a).key k = s.key k := rfl

/-! ### `setDt` -/

@[simp] theorem State.setDt_v (b : Byte) : (s.setDt b).v = s.v := rfl
@[simp] theorem State.setDt_pc (b : Byte) : (s.setDt b).pc = s.pc := rfl
@[simp] theorem State.setDt_i (b : Byte) : (s.setDt b).i = s.i := rfl
@[simp] theorem State.setDt_stack (b : Byte) : (s.setDt b).stack = s.stack := rfl
@[simp] theorem State.setDt_dt (b : Byte) : (s.setDt b).dt = b := rfl
@[simp] theorem State.setDt_st (b : Byte) : (s.setDt b).st = s.st := rfl
@[simp] theorem State.setDt_mem (b : Byte) : (s.setDt b).mem = s.mem := rfl
@[simp] theorem State.setDt_fb (b : Byte) : (s.setDt b).fb = s.fb := rfl
@[simp] theorem State.setDt_keys (b : Byte) : (s.setDt b).keys = s.keys := rfl
@[simp] theorem State.setDt_font (b : Byte) : (s.setDt b).font = s.font := rfl
@[simp] theorem State.setDt_schedule (b : Byte) : (s.setDt b).schedule = s.schedule := rfl
@[simp] theorem State.setDt_draws (b : Byte) : (s.setDt b).draws = s.draws := rfl
@[simp] theorem State.setDt_drawCount (b : Byte) : (s.setDt b).drawCount = s.drawCount := rfl
@[simp] theorem State.setDt_reg (b : Byte) (k : RegIdx) : (s.setDt b).reg k = s.reg k := rfl
@[simp] theorem State.setDt_byteAt (b : Byte) (n : Nat) : (s.setDt b).byteAt n = s.byteAt n := rfl
@[simp] theorem State.setDt_key (b : Byte) (k : Fin 16) : (s.setDt b).key k = s.key k := rfl

/-! ### `setSt` -/

@[simp] theorem State.setSt_v (b : Byte) : (s.setSt b).v = s.v := rfl
@[simp] theorem State.setSt_pc (b : Byte) : (s.setSt b).pc = s.pc := rfl
@[simp] theorem State.setSt_i (b : Byte) : (s.setSt b).i = s.i := rfl
@[simp] theorem State.setSt_stack (b : Byte) : (s.setSt b).stack = s.stack := rfl
@[simp] theorem State.setSt_dt (b : Byte) : (s.setSt b).dt = s.dt := rfl
@[simp] theorem State.setSt_st (b : Byte) : (s.setSt b).st = b := rfl
@[simp] theorem State.setSt_mem (b : Byte) : (s.setSt b).mem = s.mem := rfl
@[simp] theorem State.setSt_fb (b : Byte) : (s.setSt b).fb = s.fb := rfl
@[simp] theorem State.setSt_keys (b : Byte) : (s.setSt b).keys = s.keys := rfl
@[simp] theorem State.setSt_font (b : Byte) : (s.setSt b).font = s.font := rfl
@[simp] theorem State.setSt_schedule (b : Byte) : (s.setSt b).schedule = s.schedule := rfl
@[simp] theorem State.setSt_draws (b : Byte) : (s.setSt b).draws = s.draws := rfl
@[simp] theorem State.setSt_drawCount (b : Byte) : (s.setSt b).drawCount = s.drawCount := rfl
@[simp] theorem State.setSt_reg (b : Byte) (k : RegIdx) : (s.setSt b).reg k = s.reg k := rfl
@[simp] theorem State.setSt_byteAt (b : Byte) (n : Nat) : (s.setSt b).byteAt n = s.byteAt n := rfl
@[simp] theorem State.setSt_key (b : Byte) (k : Fin 16) : (s.setSt b).key k = s.key k := rfl

/-! ### `setStack` -/

@[simp] theorem State.setStack_v (l : List Word) : (s.setStack l).v = s.v := rfl
@[simp] theorem State.setStack_pc (l : List Word) : (s.setStack l).pc = s.pc := rfl
@[simp] theorem State.setStack_i (l : List Word) : (s.setStack l).i = s.i := rfl
@[simp] theorem State.setStack_stack (l : List Word) : (s.setStack l).stack = l := rfl
@[simp] theorem State.setStack_dt (l : List Word) : (s.setStack l).dt = s.dt := rfl
@[simp] theorem State.setStack_st (l : List Word) : (s.setStack l).st = s.st := rfl
@[simp] theorem State.setStack_mem (l : List Word) : (s.setStack l).mem = s.mem := rfl
@[simp] theorem State.setStack_fb (l : List Word) : (s.setStack l).fb = s.fb := rfl
@[simp] theorem State.setStack_keys (l : List Word) : (s.setStack l).keys = s.keys := rfl
@[simp] theorem State.setStack_font (l : List Word) : (s.setStack l).font = s.font := rfl
@[simp] theorem State.setStack_schedule (l : List Word) : (s.setStack l).schedule = s.schedule := rfl
@[simp] theorem State.setStack_draws (l : List Word) : (s.setStack l).draws = s.draws := rfl
@[simp] theorem State.setStack_drawCount (l : List Word) : (s.setStack l).drawCount = s.drawCount := rfl
@[simp] theorem State.setStack_reg (l : List Word) (k : RegIdx) : (s.setStack l).reg k = s.reg k := rfl
@[simp] theorem State.setStack_byteAt (l : List Word) (n : Nat) : (s.setStack l).byteAt n = s.byteAt n := rfl
@[simp] theorem State.setStack_key (l : List Word) (k : Fin 16) : (s.setStack l).key k = s.key k := rfl

/-! ### `setFb` -/

@[simp] theorem State.setFb_v (f : Framebuffer) : (s.setFb f).v = s.v := rfl
@[simp] theorem State.setFb_pc (f : Framebuffer) : (s.setFb f).pc = s.pc := rfl
@[simp] theorem State.setFb_i (f : Framebuffer) : (s.setFb f).i = s.i := rfl
@[simp] theorem State.setFb_stack (f : Framebuffer) : (s.setFb f).stack = s.stack := rfl
@[simp] theorem State.setFb_dt (f : Framebuffer) : (s.setFb f).dt = s.dt := rfl
@[simp] theorem State.setFb_st (f : Framebuffer) : (s.setFb f).st = s.st := rfl
@[simp] theorem State.setFb_mem (f : Framebuffer) : (s.setFb f).mem = s.mem := rfl
@[simp] theorem State.setFb_fb (f : Framebuffer) : (s.setFb f).fb = f := rfl
@[simp] theorem State.setFb_keys (f : Framebuffer) : (s.setFb f).keys = s.keys := rfl
@[simp] theorem State.setFb_font (f : Framebuffer) : (s.setFb f).font = s.font := rfl
@[simp] theorem State.setFb_schedule (f : Framebuffer) : (s.setFb f).schedule = s.schedule := rfl
@[simp] theorem State.setFb_draws (f : Framebuffer) : (s.setFb f).draws = s.draws := rfl
@[simp] theorem State.setFb_drawCount (f : Framebuffer) : (s.setFb f).drawCount = s.drawCount := rfl
@[simp] theorem State.setFb_reg (f : Framebuffer) (k : RegIdx) : (s.setFb f).reg k = s.reg k := rfl
@[simp] theorem State.setFb_byteAt (f : Framebuffer) (n : Nat) : (s.setFb f).byteAt n = s.byteAt n := rfl
@[simp] theorem State.setFb_key (f : Framebuffer) (k : Fin 16) : (s.setFb f).key k = s.key k := rfl

/-! ### `setSchedule` -/

@[simp] theorem State.setSchedule_v (l : List HostCommand) : (s.setSchedule l).v = s.v := rfl
@[simp] theorem State.setSchedule_pc (l : List HostCommand) : (s.setSchedule l).pc = s.pc := rfl
@[simp] theorem State.setSchedule_i (l : List HostCommand) : (s.setSchedule l).i = s.i := rfl
@[simp] theorem State.setSchedule_stack (l : List HostCommand) : (s.setSchedule l).stack = s.stack := rfl
@[simp] theorem State.setSchedule_dt (l : List HostCommand) : (s.setSchedule l).dt = s.dt := rfl
@[simp] theorem State.setSchedule_st (l : List HostCommand) : (s.setSchedule l).st = s.st := rfl
@[simp] theorem State.setSchedule_mem (l : List HostCommand) : (s.setSchedule l).mem = s.mem := rfl
@[simp] theorem State.setSchedule_fb (l : List HostCommand) : (s.setSchedule l).fb = s.fb := rfl
@[simp] theorem State.setSchedule_keys (l : List HostCommand) : (s.setSchedule l).keys = s.keys := rfl
@[simp] theorem State.setSchedule_font (l : List HostCommand) : (s.setSchedule l).font = s.font := rfl
@[simp] theorem State.setSchedule_schedule (l : List HostCommand) : (s.setSchedule l).schedule = l := rfl
@[simp] theorem State.setSchedule_draws (l : List HostCommand) : (s.setSchedule l).draws = s.draws := rfl
@[simp] theorem State.setSchedule_drawCount (l : List HostCommand) : (s.setSchedule l).drawCount = s.drawCount := rfl
@[simp] theorem State.setSchedule_reg (l : List HostCommand) (k : RegIdx) : (s.setSchedule l).reg k = s.reg k := rfl
@[simp] theorem State.setSchedule_byteAt (l : List HostCommand) (n : Nat) : (s.setSchedule l).byteAt n = s.byteAt n := rfl
@[simp] theorem State.setSchedule_key (l : List HostCommand) (k : Fin 16) : (s.setSchedule l).key k = s.key k := rfl

/-! ### `setKey` -/

@[simp] theorem State.setKey_v (j : Fin 16) (b : Bool) : (s.setKey j b).v = s.v := rfl
@[simp] theorem State.setKey_pc (j : Fin 16) (b : Bool) : (s.setKey j b).pc = s.pc := rfl
@[simp] theorem State.setKey_i (j : Fin 16) (b : Bool) : (s.setKey j b).i = s.i := rfl
@[simp] theorem State.setKey_stack (j : Fin 16) (b : Bool) : (s.setKey j b).stack = s.stack := rfl
@[simp] theorem State.setKey_dt (j : Fin 16) (b : Bool) : (s.setKey j b).dt = s.dt := rfl
@[simp] theorem State.setKey_st (j : Fin 16) (b : Bool) : (s.setKey j b).st = s.st := rfl
@[simp] theorem State.setKey_mem (j : Fin 16) (b : Bool) : (s.setKey j b).mem = s.mem := rfl
@[simp] theorem State.setKey_fb (j : Fin 16) (b : Bool) : (s.setKey j b).fb = s.fb := rfl
@[simp] theorem State.setKey_keys (j : Fin 16) (b : Bool) : (s.setKey j b).keys = s.keys.set j b := rfl
@[simp] theorem State.setKey_font (j : Fin 16) (b : Bool) : (s.setKey j b).font = s.font := rfl
@[simp] theorem State.setKey_schedule (j : Fin 16) (b : Bool) : (s.setKey j b).schedule = s.schedule := rfl
@[simp] theorem State.setKey_draws (j : Fin 16) (b : Bool) : (s.setKey j b).draws = s.draws := rfl
@[simp] theorem State.setKey_drawCount (j : Fin 16) (b : Bool) : (s.setKey j b).drawCount = s.drawCount := rfl
@[simp] theorem State.setKey_reg (j : Fin 16) (b : Bool) (k : RegIdx) : (s.setKey j b).reg k = s.reg k := rfl
@[simp] theorem State.setKey_byteAt (j : Fin 16) (b : Bool) (n : Nat) : (s.setKey j b).byteAt n = s.byteAt n := rfl

/-! ### `setByte` -/

@[simp] theorem State.setByte_v (a : Nat) (b : Byte) : (s.setByte a b).v = s.v := rfl
@[simp] theorem State.setByte_pc (a : Nat) (b : Byte) : (s.setByte a b).pc = s.pc := rfl
@[simp] theorem State.setByte_i (a : Nat) (b : Byte) : (s.setByte a b).i = s.i := rfl
@[simp] theorem State.setByte_stack (a : Nat) (b : Byte) : (s.setByte a b).stack = s.stack := rfl
@[simp] theorem State.setByte_dt (a : Nat) (b : Byte) : (s.setByte a b).dt = s.dt := rfl
@[simp] theorem State.setByte_st (a : Nat) (b : Byte) : (s.setByte a b).st = s.st := rfl
@[simp] theorem State.setByte_mem (a : Nat) (b : Byte) : (s.setByte a b).mem = s.mem.write s.font a b := rfl
@[simp] theorem State.setByte_fb (a : Nat) (b : Byte) : (s.setByte a b).fb = s.fb := rfl
@[simp] theorem State.setByte_keys (a : Nat) (b : Byte) : (s.setByte a b).keys = s.keys := rfl
@[simp] theorem State.setByte_font (a : Nat) (b : Byte) : (s.setByte a b).font = s.font := rfl
@[simp] theorem State.setByte_schedule (a : Nat) (b : Byte) : (s.setByte a b).schedule = s.schedule := rfl
@[simp] theorem State.setByte_draws (a : Nat) (b : Byte) : (s.setByte a b).draws = s.draws := rfl
@[simp] theorem State.setByte_drawCount (a : Nat) (b : Byte) : (s.setByte a b).drawCount = s.drawCount := rfl
@[simp] theorem State.setByte_reg (a : Nat) (b : Byte) (k : RegIdx) : (s.setByte a b).reg k = s.reg k := rfl
@[simp] theorem State.setByte_key (a : Nat) (b : Byte) (k : Fin 16) : (s.setByte a b).key k = s.key k := rfl

/-! ### `drawn` -/

@[simp] theorem State.drawn_v : (s.drawn).v = s.v := rfl
@[simp] theorem State.drawn_pc : (s.drawn).pc = s.pc := rfl
@[simp] theorem State.drawn_i : (s.drawn).i = s.i := rfl
@[simp] theorem State.drawn_stack : (s.drawn).stack = s.stack := rfl
@[simp] theorem State.drawn_dt : (s.drawn).dt = s.dt := rfl
@[simp] theorem State.drawn_st : (s.drawn).st = s.st := rfl
@[simp] theorem State.drawn_mem : (s.drawn).mem = s.mem := rfl
@[simp] theorem State.drawn_fb : (s.drawn).fb = s.fb := rfl
@[simp] theorem State.drawn_keys : (s.drawn).keys = s.keys := rfl
@[simp] theorem State.drawn_font : (s.drawn).font = s.font := rfl
@[simp] theorem State.drawn_schedule : (s.drawn).schedule = s.schedule := rfl
@[simp] theorem State.drawn_draws : (s.drawn).draws = s.draws.tail := rfl
@[simp] theorem State.drawn_drawCount : (s.drawn).drawCount = s.drawCount + 1 := rfl
@[simp] theorem State.drawn_reg (k : RegIdx) : (s.drawn).reg k = s.reg k := rfl
@[simp] theorem State.drawn_byteAt (n : Nat) : (s.drawn).byteAt n = s.byteAt n := rfl
@[simp] theorem State.drawn_key (k : Fin 16) : (s.drawn).key k = s.key k := rfl

/-! ### `setFlag` -/

@[simp] theorem State.setFlag_pc (flag : Bool) : (s.setFlag flag).pc = s.pc := rfl
@[simp] theorem State.setFlag_i (flag : Bool) : (s.setFlag flag).i = s.i := rfl
@[simp] theorem State.setFlag_stack (flag : Bool) : (s.setFlag flag).stack = s.stack := rfl
@[simp] theorem State.setFlag_dt (flag : Bool) : (s.setFlag flag).dt = s.dt := rfl
@[simp] theorem State.setFlag_st (flag : Bool) : (s.setFlag flag).st = s.st := rfl
@[simp] theorem State.setFlag_mem (flag : Bool) : (s.setFlag flag).mem = s.mem := rfl
@[simp] theorem State.setFlag_fb (flag : Bool) : (s.setFlag flag).fb = s.fb := rfl
@[simp] theorem State.setFlag_keys (flag : Bool) : (s.setFlag flag).keys = s.keys := rfl
@[simp] theorem State.setFlag_font (flag : Bool) : (s.setFlag flag).font = s.font := rfl
@[simp] theorem State.setFlag_schedule (flag : Bool) : (s.setFlag flag).schedule = s.schedule := rfl
@[simp] theorem State.setFlag_draws (flag : Bool) : (s.setFlag flag).draws = s.draws := rfl
@[simp] theorem State.setFlag_drawCount (flag : Bool) : (s.setFlag flag).drawCount = s.drawCount := rfl
@[simp] theorem State.setFlag_byteAt (flag : Bool) (n : Nat) : (s.setFlag flag).byteAt n = s.byteAt n := rfl
@[simp] theorem State.setFlag_key (flag : Bool) (k : Fin 16) : (s.setFlag flag).key k = s.key k := rfl

/-! ### `setResultFlag` -/

@[simp] theorem State.setResultFlag_pc (x : RegIdx) (b : Byte) (flag : Bool) : (s.setResultFlag x b flag).pc = s.pc := rfl
@[simp] theorem State.setResultFlag_i (x : RegIdx) (b : Byte) (flag : Bool) : (s.setResultFlag x b flag).i = s.i := rfl
@[simp] theorem State.setResultFlag_stack (x : RegIdx) (b : Byte) (flag : Bool) : (s.setResultFlag x b flag).stack = s.stack := rfl
@[simp] theorem State.setResultFlag_dt (x : RegIdx) (b : Byte) (flag : Bool) : (s.setResultFlag x b flag).dt = s.dt := rfl
@[simp] theorem State.setResultFlag_st (x : RegIdx) (b : Byte) (flag : Bool) : (s.setResultFlag x b flag).st = s.st := rfl
@[simp] theorem State.setResultFlag_mem (x : RegIdx) (b : Byte) (flag : Bool) : (s.setResultFlag x b flag).mem = s.mem := rfl
@[simp] theorem State.setResultFlag_fb (x : RegIdx) (b : Byte) (flag : Bool) : (s.setResultFlag x b flag).fb = s.fb := rfl
@[simp] theorem State.setResultFlag_keys (x : RegIdx) (b : Byte) (flag : Bool) : (s.setResultFlag x b flag).keys = s.keys := rfl
@[simp] theorem State.setResultFlag_font (x : RegIdx) (b : Byte) (flag : Bool) : (s.setResultFlag x b flag).font = s.font := rfl
@[simp] theorem State.setResultFlag_schedule (x : RegIdx) (b : Byte) (flag : Bool) : (s.setResultFlag x b flag).schedule = s.schedule := rfl
@[simp] theorem State.setResultFlag_draws (x : RegIdx) (b : Byte) (flag : Bool) : (s.setResultFlag x b flag).draws = s.draws := rfl
@[simp] theorem State.setResultFlag_drawCount (x : RegIdx) (b : Byte) (flag : Bool) : (s.setResultFlag x b flag).drawCount = s.drawCount := rfl
@[simp] theorem State.setResultFlag_byteAt (x : RegIdx) (b : Byte) (flag : Bool) (n : Nat) : (s.setResultFlag x b flag).byteAt n = s.byteAt n := rfl
@[simp] theorem State.setResultFlag_key (x : RegIdx) (b : Byte) (flag : Bool) (k : Fin 16) : (s.setResultFlag x b flag).key k = s.key k := rfl

/-! ### Reading back what was written -/

@[simp] theorem State.setReg_reg (x : RegIdx) (b : Byte) (k : RegIdx) :
    (s.setReg x b).reg k = if k = x then b else s.reg k := by
  simp only [State.setReg, State.reg, Fin.getElem_fin, Vector.getElem_set, Fin.ext_iff, eq_comm]

@[simp] theorem State.setRegs_reg (v : Registers) (k : RegIdx) : (s.setRegs v).reg k = v[k] := rfl

@[simp] theorem State.setKey_key (j : Fin 16) (b : Bool) (k : Fin 16) :
    (s.setKey j b).key k = if k = j then b else s.key k := by
  simp only [State.setKey, State.key, Fin.getElem_fin, Vector.getElem_set, Fin.ext_iff, eq_comm]

@[simp] theorem State.setFlag_reg (flag : Bool) (k : RegIdx) :
    (s.setFlag flag).reg k = if k = 15 then flagByte flag else s.reg k := by
  simp [State.setFlag]

/-- A result and a flag: VF is the flag, whatever x is (00_scope.md R13). -/
@[simp] theorem State.setResultFlag_reg (x : RegIdx) (b : Byte) (flag : Bool) (k : RegIdx) :
    (s.setResultFlag x b flag).reg k = if k = 15 then flagByte flag else if k = x then b else s.reg k := by
  simp [State.setResultFlag]

@[simp] theorem State.construct_reg (f : Font) (l : List HostCommand) (d : List Byte) (n : Nat) (k : RegIdx) :
    (State.construct f l d n).reg k = 0 := by
  simp [State.construct, State.reg]

@[simp] theorem State.construct_key (f : Font) (l : List HostCommand) (d : List Byte) (n : Nat) (k : Fin 16) :
    (State.construct f l d n).key k = false := by
  simp [State.construct, State.key]

@[simp] theorem State.construct_byteAt (f : Font) (l : List HostCommand) (d : List Byte) (n : Nat) (a : Nat) :
    (State.construct f l d n).byteAt a = Memory.blank f a := rfl

/-- Registers that read alike are the same registers. -/
theorem State.regs_ext {s t : State} (h : ∀ k, t.reg k = s.reg k) : t.v = s.v :=
  Vector.ext fun j hj => h ⟨j, hj⟩

end Sys2Proof.Machine
end

