-- ==== Sys2Proof/Laws/Ops.lean ====
section
/-! SUPPORT. One lemma per shared operation of Machine/Ops.lean and Machine/Operands.lean: everything it can do. -/

namespace Sys2Proof.Machine

/-! ### Outcomes -/

section Outcomes
variable {α β : Type} {e : Fault} {k : Host.Outcome α Fault Refusal} {c : Prop} [Decidable c]

@[simp] theorem andThen_next (a : α) (f : α → Host.Outcome β Fault Refusal) : andThen (.next a) f = f a := rfl

@[simp] theorem andThen_raise (e : Fault) (f : α → Host.Outcome β Fault Refusal) : andThen (raise e) f = raise e := rfl

@[simp] theorem andThen_fault (e : Fault) (f : α → Host.Outcome β Fault Refusal) : andThen (.fault e) f = raise e := rfl

/-- A sequence answers next exactly where both parts do. -/
theorem andThen_eq_next {o : Host.Outcome α Fault Refusal} {f : α → Host.Outcome β Fault Refusal} {b : β} :
    andThen o f = .next b ↔ ∃ a, o = .next a ∧ f a = .next b := by
  cases o <;> simp [andThen]

/-- A sequence ends in an error exactly where its first part does, or its second after it. -/
theorem andThen_eq_fault {o : Host.Outcome α Fault Refusal} {f : α → Host.Outcome β Fault Refusal} :
    andThen o f = .fault e ↔ o = .fault e ∨ ∃ a, o = .next a ∧ f a = .fault e := by
  cases o <;> simp [andThen]

@[simp] theorem raise_eq_fault {e' : Fault} : (raise e : Host.Outcome α Fault Refusal) = .fault e' ↔ e = e' :=
  ⟨fun h => Host.Outcome.fault.inj h, fun h => h ▸ rfl⟩

theorem raise_ne_next {a : α} : raise e ≠ (.next a : Host.Outcome α Fault Refusal) := nofun

theorem check_pos (h : c) : check c e k = k := if_pos h

theorem check_neg (h : ¬ c) : check c e k = raise e := if_neg h

/-- A check lets its continuation run exactly where its condition holds. -/
theorem check_eq_next {a : α} : check c e k = .next a ↔ c ∧ k = .next a := by
  unfold check
  split <;> simp_all [raise]

/-- A check ends in an error exactly where its condition fails, and else where its continuation does. -/
theorem check_eq_fault {e' : Fault} : check c e k = .fault e' ↔ (¬ c ∧ e' = e) ∨ (c ∧ k = .fault e') := by
  unfold check
  split <;> simp_all [eq_comm (a := e)]

theorem checkSpan_eq_next {a len : Nat} {b : α} :
    checkSpan a len k = .next b ↔ spanInMemory a len ∧ k = .next b := check_eq_next

theorem checkSpan_pos {a len : Nat} (h : spanInMemory a len) : checkSpan a len k = k := check_pos h

theorem checkSpan_neg {a len : Nat} (h : ¬ spanInMemory a len) :
    checkSpan a len k = raise (.memoryOutOfBounds (max a 4096)) := check_neg h

/-- The check of a span before a state is answered fails exactly where the span leaves memory (42_index_memory.md R153). -/
theorem checkSpan_eq_fault {a len : Nat} {b : α} :
    checkSpan a len (.next b) = .fault e ↔ (0 < len ∧ 4096 < a + len) ∧ e = .memoryOutOfBounds (max a 4096) := by
  rw [checkSpan, check_eq_fault]
  simp only [spanInMemory, reduceCtorEq, and_false, or_false, not_or, not_le, Nat.pos_iff_ne_zero]

end Outcomes

/-! ### Memory -/

namespace Memory
variable (font : Font) (m : Memory) (a : Nat) (b : Byte)

@[simp] theorem find_nil : Memory.find [] a = none := rfl

theorem find_erase_self : Memory.find (Memory.erase m a) a = none := by
  induction m with
  | nil => rfl
  | cons c m ih =>
    by_cases h : c.1 = a
    · simpa [Memory.erase, h] using ih
    · simpa [Memory.erase, Memory.find, h] using ih

theorem find_erase_of_ne {k : Nat} (h : k ≠ a) : Memory.find (Memory.erase m a) k = Memory.find m k := by
  induction m with
  | nil => rfl
  | cons c m ih =>
    by_cases hc : c.1 = a
    · have hk : ¬ c.1 = k := fun e => h (e.symm.trans hc)
      simpa [Memory.erase, Memory.find, hc, hk, Ne.symm h] using ih
    · by_cases hk : c.1 = k
      · simp [Memory.erase, Memory.find, hk, h]
      · simpa [Memory.erase, Memory.find, hc, hk] using ih

theorem find_insert_self : Memory.find (Memory.insert m a b) a = some b := by
  induction m with
  | nil => simp [Memory.insert, Memory.find]
  | cons c m ih =>
    by_cases hc : c.1 < a
    · simp [Memory.insert, Memory.find, hc, Nat.ne_of_lt hc, ih]
    · simp [Memory.insert, Memory.find, hc]

theorem find_insert_of_ne {k : Nat} (h : k ≠ a) : Memory.find (Memory.insert m a b) k = Memory.find m k := by
  induction m with
  | nil => simp [Memory.insert, Memory.find, Ne.symm h]
  | cons c m ih =>
    by_cases hc : c.1 < a
    · simp [Memory.insert, Memory.find, hc, ih]
    · simp [Memory.insert, Memory.find, hc, Ne.symm h]

/-- A write is read back, and leaves every other address alone (20_memory.md R60). -/
theorem read_write (k : Nat) :
    Memory.read font (Memory.write font m a b) k = if k = a then b else Memory.read font m k := by
  unfold Memory.write Memory.read
  by_cases hk : k = a
  · subst hk
    split
    · simp [find_erase_self, *]
    · simp [find_insert_self]
  · split <;> simp [hk, find_erase_of_ne, find_insert_of_ne]

theorem mem_insert {c : Host.Cell} : c ∈ Memory.insert m a b ↔ c = (a, b) ∨ c ∈ m := by
  induction m with
  | nil => simp [Memory.insert]
  | cons d m ih =>
    by_cases hd : d.1 < a
    · simp [Memory.insert, hd, ih, or_left_comm]
    · simp [Memory.insert, hd]

theorem mem_erase {c : Host.Cell} : c ∈ Memory.erase m a ↔ c ∈ m ∧ c.1 ≠ a := by
  simp [Memory.erase]

theorem insert_rising (h : m.Pairwise (fun c d => c.1 < d.1)) (ha : ∀ c ∈ m, c.1 ≠ a) :
    (Memory.insert m a b).Pairwise (fun c d => c.1 < d.1) := by
  induction m with
  | nil => simp [Memory.insert]
  | cons d m ih =>
    obtain ⟨hd, hm⟩ := List.pairwise_cons.mp h
    by_cases hda : d.1 < a
    · simp only [Memory.insert, hda, if_true, List.pairwise_cons, mem_insert]
      refine ⟨?_, ih hm fun c hc => ha c (List.mem_cons_of_mem _ hc)⟩
      rintro c (rfl | hc)
      · exact hda
      · exact hd c hc
    · simp only [Memory.insert, hda, if_false, List.pairwise_cons]
      have hne : d.1 ≠ a := ha d List.mem_cons_self
      refine ⟨?_, hd, hm⟩
      rintro c hc
      obtain rfl | hc := List.mem_cons.mp hc
      · show a < c.1
        omega
      · have := hd c hc
        show a < c.1
        omega

theorem erase_wf (h : Memory.wf font m) : Memory.wf font (Memory.erase m a) :=
  ⟨h.1.sublist List.filter_sublist, fun c hc => h.2 c ((mem_erase m a).mp hc).1⟩

/-- Every write of a byte of memory keeps the canonical form. -/
theorem write_wf (h : Memory.wf font m) (ha : a < 4096) : Memory.wf font (Memory.write font m a b) := by
  unfold Memory.write
  split
  · exact erase_wf font m a h
  · rename_i hb
    have he := erase_wf font m a h
    refine ⟨insert_rising _ a b he.1 fun c hc => ((mem_erase m a).mp hc).2, fun c hc => ?_⟩
    obtain rfl | hc := (mem_insert _ a b).mp hc
    · exact ⟨ha, hb⟩
    · exact he.2 c hc

theorem nil_wf : Memory.wf font [] := by simp [Memory.wf]

end Memory

@[simp] theorem State.setByte_byteAt (s : State) (a : Nat) (b : Byte) (k : Nat) :
    (s.setByte a b).byteAt k = if k = a then b else s.byteAt k := Memory.read_write _ _ _ _ _

/-! ### Spans of bytes -/

@[simp] theorem State.bytesAt_length (s : State) (a len : Nat) : (s.bytesAt a len).length = len := by
  induction len generalizing a with
  | zero => rfl
  | succ n ih => simp [State.bytesAt, ih]

theorem State.bytesAt_getElem (s : State) (a len j : Nat) (h : j < (s.bytesAt a len).length) :
    (s.bytesAt a len)[j] = s.byteAt (a + j) := by
  induction len generalizing a j with
  | zero => simp [State.bytesAt] at h
  | succ n ih =>
    cases j with
    | zero => rfl
    | succ j =>
      have := ih (a + 1) j (by simpa [State.bytesAt] using h)
      simpa [State.bytesAt, Nat.add_assoc, Nat.add_comm 1 j] using this

/-- Bytes written from `a` on are read back in order, and every other address is left alone. -/
theorem State.setBytes_byteAt (s : State) (a : Nat) (bs : List Byte) (k : Nat) :
    (s.setBytes a bs).byteAt k = if a ≤ k then (bs[k - a]?).getD (s.byteAt k) else s.byteAt k := by
  induction bs generalizing s a with
  | nil => simp [State.setBytes]
  | cons b bs ih =>
    rw [State.setBytes, ih]
    by_cases hk : k = a
    · subst hk
      simp
    · by_cases hlt : a ≤ k
      · have h1 : a + 1 ≤ k := by omega
        have h2 : k - a = (k - (a + 1)) + 1 := by omega
        simp [hk, hlt, h1, h2]
      · simp [hk, hlt, show ¬ a + 1 ≤ k by omega]

/-- Writing bytes changes memory and nothing else. -/
theorem State.setBytes_eq (s : State) (a : Nat) (bs : List Byte) :
    s.setBytes a bs = { s with mem := (s.setBytes a bs).mem } := by
  induction bs generalizing s a with
  | nil => rfl
  | cons b bs ih =>
    rw [State.setBytes, ih]
    rfl

section
variable (s : State) (a : Nat) (bs : List Byte)
@[simp] theorem State.setBytes_v : (s.setBytes a bs).v = s.v := by rw [State.setBytes_eq]
@[simp] theorem State.setBytes_pc : (s.setBytes a bs).pc = s.pc := by rw [State.setBytes_eq]
@[simp] theorem State.setBytes_i : (s.setBytes a bs).i = s.i := by rw [State.setBytes_eq]
@[simp] theorem State.setBytes_stack : (s.setBytes a bs).stack = s.stack := by rw [State.setBytes_eq]
@[simp] theorem State.setBytes_dt : (s.setBytes a bs).dt = s.dt := by rw [State.setBytes_eq]
@[simp] theorem State.setBytes_st : (s.setBytes a bs).st = s.st := by rw [State.setBytes_eq]
@[simp] theorem State.setBytes_fb : (s.setBytes a bs).fb = s.fb := by rw [State.setBytes_eq]
@[simp] theorem State.setBytes_keys : (s.setBytes a bs).keys = s.keys := by rw [State.setBytes_eq]
@[simp] theorem State.setBytes_font : (s.setBytes a bs).font = s.font := by rw [State.setBytes_eq]
@[simp] theorem State.setBytes_schedule : (s.setBytes a bs).schedule = s.schedule := by rw [State.setBytes_eq]
@[simp] theorem State.setBytes_draws : (s.setBytes a bs).draws = s.draws := by rw [State.setBytes_eq]
@[simp] theorem State.setBytes_drawCount : (s.setBytes a bs).drawCount = s.drawCount := by rw [State.setBytes_eq]
@[simp] theorem State.setBytes_reg (k : RegIdx) : (s.setBytes a bs).reg k = s.reg k := by simp [State.reg]
@[simp] theorem State.setBytes_key (k : Fin 16) : (s.setBytes a bs).key k = s.key k := by simp [State.key]
end

/-- Bytes written inside memory keep its canonical form. -/
theorem State.setBytes_wf (s : State) (a : Nat) (bs : List Byte) (h : s.mem.wf s.font)
    (hb : spanInMemory a bs.length) : (s.setBytes a bs).mem.wf s.font := by
  induction bs generalizing s a with
  | nil => exact h
  | cons b bs ih =>
    simp only [spanInMemory, List.length_cons] at hb
    exact ih (s.setByte a b) (a + 1) (Memory.write_wf s.font s.mem a b h (by omega)) (by simp only [spanInMemory]; omega)

/-! ### Operand forms -/

@[simp] theorem State.firstRegs_length (s : State) (x : RegIdx) : (s.firstRegs x).length = x.val + 1 := by
  simp only [State.firstRegs, List.length_take, Vector.length_toList]
  omega

theorem State.firstRegs_getElem (s : State) (x k : RegIdx) (h : k ≤ x) :
    (s.firstRegs x)[k.val]'(by simp; omega) = s.reg k := by
  simp [State.firstRegs, State.reg]

@[simp] theorem State.regsFromMemory_getElem (s : State) (x k : RegIdx) :
    (s.regsFromMemory x)[k] = if k ≤ x then s.byteAt (s.i.toNat + k.val) else s.reg k := by
  simp [State.regsFromMemory]

@[simp] theorem decimalDigits_length (b : Byte) : (decimalDigits b).length = 3 := rfl

/-! ### The call stack (10_state.md R27) -/

theorem push_eq_next {v : Word} {s t : State} :
    push v s = .next t ↔ s.stack.length < 16 ∧ t = s.setStack (s.stack ++ [v]) := by
  rw [push, check_eq_next, Host.Outcome.next.injEq, eq_comm (b := t)]

theorem push_full {v : Word} {s : State} (h : ¬ s.stack.length < 16) : push v s = raise .stackOverflow := check_neg h

theorem push_eq_fault {v : Word} {s : State} {e : Fault} :
    push v s = .fault e ↔ 16 ≤ s.stack.length ∧ e = .stackOverflow := by
  simp [push, check_eq_fault]

theorem pop_eq_fault {s : State} {e : Fault} : pop s = .fault e ↔ s.stack = [] ∧ e = .stackUnderflow := by
  unfold pop
  split <;> simp_all [eq_comm (b := e)]
  rintro h
  simp_all

theorem pop_empty {s : State} (h : s.stack = []) : pop s = raise .stackUnderflow := by
  simp [pop, h]

theorem pop_eq_next {s : State} {r : Word × State} :
    pop s = .next r ↔ ∃ front v, s.stack = front ++ [v] ∧ r = (v, s.setStack front) := by
  constructor
  · intro h
    unfold pop at h
    cases hs : s.stack.getLast? with
    | none => simp [hs, raise] at h
    | some v =>
      simp only [hs, Host.Outcome.next.injEq] at h
      obtain ⟨front, hf⟩ := List.getLast?_eq_some_iff.mp hs
      exact ⟨front, v, hf, by rw [← h, hf, List.dropLast_concat]⟩
  · rintro ⟨front, v, hf, rfl⟩
    simp [pop, hf]

/-! ### The fetch (30_encoding.md R71) -/

/-- A fetch succeeds exactly for PC up to 4094 and joins the two bytes there, the first one high. -/
theorem fetch_eq_next {s : State} {op : Word} :
    fetch s = .next op ↔ s.pc.toNat ≤ 4094 ∧ op = joinBytes (s.byteAt s.pc.toNat) (s.byteAt (s.pc.toNat + 1)) := by
  simp only [fetch, memRead, andThen_eq_next, check_eq_next, Host.Outcome.next.injEq]
  constructor
  · rintro ⟨hi, ⟨h1, rfl⟩, lo, ⟨h2, rfl⟩, rfl⟩
    exact ⟨by omega, rfl⟩
  · rintro ⟨h, rfl⟩
    exact ⟨_, ⟨by omega, rfl⟩, _, ⟨by omega, rfl⟩, rfl⟩

/-- A fetch fails exactly for PC above 4094, with the lowest address outside memory (60_exceptions.md R201). -/
theorem fetch_eq_fault {s : State} {e : Fault} :
    fetch s = .fault e ↔ 4094 < s.pc.toNat ∧ e = .memoryOutOfBounds (max s.pc.toNat 4096) := by
  simp only [fetch, memRead, andThen_eq_fault, check_eq_fault, check_eq_next, reduceCtorEq, and_false, or_false,
    exists_false]
  constructor
  · rintro (⟨h, rfl⟩ | ⟨_, ⟨h1, _⟩, h2, rfl⟩)
    · exact ⟨by omega, by congr 1; omega⟩
    · exact ⟨by omega, by congr 1; omega⟩
  · rintro ⟨h, rfl⟩
    by_cases hp : s.pc.toNat < 4096
    · exact .inr ⟨_, ⟨hp, rfl⟩, by omega, by congr 1; omega⟩
    · exact .inl ⟨hp, by congr 1; omega⟩

/-! ### The keypad -/

theorem keyIndex_lt {k : Nat} (h : k < 16) : keyIndex k = .next ⟨k, h⟩ := dif_pos h

theorem keyIndex_ge {k : Nat} (h : ¬ k < 16) : keyIndex k = raise (.invalidKeypadIndex k) := dif_neg h

theorem keyIndex_eq_next {k : Nat} {j : Fin 16} : keyIndex k = .next j ↔ k = j.val := by
  unfold keyIndex
  split
  · simp [Fin.ext_iff]
  · simp only [raise, reduceCtorEq, false_iff]
    omega

theorem keyIndex_eq_fault {k : Nat} {e : Fault} : keyIndex k = .fault e ↔ 16 ≤ k ∧ e = .invalidKeypadIndex k := by
  unfold keyIndex
  split
  · simp only [reduceCtorEq, false_iff]
    omega
  · rw [raise_eq_fault, eq_comm (b := e)]
    exact (and_iff_right (by omega)).symm

/-- The lowest pressed key (44_keypad_timers.md R187). -/
theorem State.lowestKey_eq_some {s : State} {k : Fin 16} :
    s.lowestKey = some k ↔ s.key k = true ∧ ∀ j < k, s.key j = false := by
  unfold State.lowestKey
  rw [List.find?_eq_some_iff_getElem]
  constructor
  · rintro ⟨hk, i, hi, he, hlt⟩
    simp only [List.getElem_finRange] at he
    refine ⟨hk, fun j hj => ?_⟩
    have hji : j.val < i := by rw [← he] at hj; exact hj
    simpa using hlt j.val hji
  · rintro ⟨hk, hlt⟩
    refine ⟨hk, k.val, by simp, by simp, fun j hj => ?_⟩
    have : s.key ⟨j, by omega⟩ = false := hlt ⟨j, by omega⟩ hj
    simpa using this

theorem State.lowestKey_eq_none {s : State} : s.lowestKey = none ↔ ∀ k, s.key k = false := by
  simp [State.lowestKey]

end Sys2Proof.Machine
end

