-- ==== Sys2Proof/Laws/Display.lean ====
section
/-! SUPPORT. What drawing a sprite does (43_display.md R172, R173): it toggles a list of distinct pixels, so each pixel ends as
its old value XORed with the sprite's bit, and there is a collision exactly when one of them was set before. -/

namespace Sys2Proof.Machine

/-! ### Pixels -/

@[simp] theorem Framebuffer.setPixel_pixel (fb : Framebuffer) (c c' : Fin 64) (r r' : Fin 32) (b : Bool) :
    (fb.setPixel c r b).pixel c' r' = if c' = c ∧ r' = r then b else fb.pixel c' r' := by
  simp only [Framebuffer.setPixel, Framebuffer.pixel, Fin.getElem_fin, Vector.getElem_set, Fin.ext_iff]
  by_cases hr : r.val = r'.val
  · by_cases hc : c.val = c'.val
    · simp [hr, hc]
    · simp [hr, hc, Ne.symm hc]
  · simp [hr, Ne.symm hr]

@[simp] theorem Framebuffer.clear_pixel (c : Fin 64) (r : Fin 32) : Framebuffer.clear.pixel c r = false := by
  simp [Framebuffer.clear, Framebuffer.pixel]

/-- Framebuffers with the same pixels are equal. -/
theorem Framebuffer.ext_pixel {f g : Framebuffer} (h : ∀ c r, f.pixel c r = g.pixel c r) : f = g :=
  Vector.ext fun r hr => Vector.ext fun c hc => h ⟨c, hc⟩ ⟨r, hr⟩

/-! ### The pixels of a sprite -/

/-- The pixels that a row's 1 bits stand for, from column `c` on in row `r`. -/
def rowPoints : List Bool → Nat → Nat → List (Fin 64 × Fin 32)
  | [], _, _ => []
  | b :: bs, c, r => (if b then [(Fin.ofNat 64 c, Fin.ofNat 32 r)] else []) ++ rowPoints bs (c + 1) r

/-- The pixels that a sprite's 1 bits stand for. -/
def spritePoints : List Byte → Nat → Nat → List (Fin 64 × Fin 32)
  | [], _, _ => []
  | b :: bs, c, r => rowPoints (spritePixels b) c r ++ spritePoints bs c (r + 1)

/-- All pixels of a list toggled. -/
def togglePoints (ps : List (Fin 64 × Fin 32)) (d : Drawing) : Drawing := ps.foldl (fun d p => togglePixel p.1 p.2 d) d

theorem drawPixels_eq (bs : List Bool) (c r : Nat) (d : Drawing) :
    drawPixels bs c r d = togglePoints (rowPoints bs c r) d := by
  induction bs generalizing c d with
  | nil => rfl
  | cons b bs ih => cases b <;> simp [drawPixels, ih, rowPoints, togglePoints]

theorem drawRows_eq (bs : List Byte) (c r : Nat) (d : Drawing) :
    drawRows bs c r d = togglePoints (spritePoints bs c r) d := by
  induction bs generalizing r d with
  | nil => rfl
  | cons b bs ih => simp [drawRows, ih, drawPixels_eq, spritePoints, togglePoints]

theorem mem_rowPoints {bs : List Bool} {c r : Nat} {p : Fin 64 × Fin 32} :
    p ∈ rowPoints bs c r ↔ ∃ j, bs[j]? = some true ∧ p.1.val = (c + j) % 64 ∧ p.2.val = r % 32 := by
  induction bs generalizing c with
  | nil => simp [rowPoints]
  | cons b bs ih =>
    rw [rowPoints, List.mem_append, ih]
    constructor
    · rintro (h | ⟨j, hj, h1, h2⟩)
      · cases b with
        | false => simp at h
        | true =>
          obtain rfl := List.mem_singleton.mp h
          exact ⟨0, rfl, rfl, rfl⟩
      · exact ⟨j + 1, hj, by rw [h1]; congr 1; omega, h2⟩
    · rintro ⟨j, hj, h1, h2⟩
      cases j with
      | zero =>
        left
        obtain rfl : b = true := by simpa using hj
        exact List.mem_singleton.mpr (Prod.ext (Fin.ext h1) (Fin.ext h2))
      | succ j => exact .inr ⟨j, hj, by rw [h1]; congr 1; omega, h2⟩

theorem mem_spritePoints {bs : List Byte} {c r : Nat} {p : Fin 64 × Fin 32} :
    p ∈ spritePoints bs c r ↔ ∃ row b j, bs[row]? = some b ∧ (spritePixels b)[j]? = some true ∧
      p.1.val = (c + j) % 64 ∧ p.2.val = (r + row) % 32 := by
  induction bs generalizing r with
  | nil => simp [spritePoints]
  | cons b bs ih =>
    rw [spritePoints, List.mem_append, ih, mem_rowPoints]
    constructor
    · rintro (⟨j, hj, h1, h2⟩ | ⟨row, b', j, hb, hj, h1, h2⟩)
      · exact ⟨0, b, j, rfl, hj, h1, h2⟩
      · exact ⟨row + 1, b', j, hb, hj, h1, by rw [h2]; congr 1; omega⟩
    · rintro ⟨row, b', j, hb, hj, h1, h2⟩
      cases row with
      | zero =>
        obtain rfl : b = b' := by simpa using hb
        exact .inl ⟨j, hj, h1, h2⟩
      | succ row => exact .inr ⟨row, b', j, hb, hj, h1, by rw [h2]; congr 1; omega⟩

/-- A 1 bit of a sprite byte, counted from the left, is bit `7 - j` of the byte (R171). -/
theorem spritePixels_getElem (b : Byte) (j : Nat) :
    (spritePixels b)[j]? = some true ↔ j < 8 ∧ b.getLsbD (7 - j) = true := by
  rcases j with _ | _ | _ | _ | _ | _ | _ | _ | j <;> simp [spritePixels]

theorem rowPoints_nodup (bs : List Bool) (c r : Nat) (h : bs.length ≤ 64) : (rowPoints bs c r).Nodup := by
  induction bs generalizing c with
  | nil => simp [rowPoints]
  | cons b bs ih =>
    simp only [List.length_cons] at h
    have ht := ih (c + 1) (by omega)
    cases b with
    | false => simpa [rowPoints] using ht
    | true =>
      simp only [rowPoints, if_true, List.singleton_append, List.nodup_cons, ht, and_true, mem_rowPoints]
      rintro ⟨j, hj, h1, -⟩
      have hlt := (List.getElem?_eq_some_iff.mp hj).1
      have : (Fin.ofNat 64 c).val = c % 64 := rfl
      simp only [this] at h1
      omega

/-- No pixel of a sprite of at most 32 rows is met twice (R173). -/
theorem spritePoints_nodup (bs : List Byte) (c r : Nat) (h : bs.length ≤ 32) : (spritePoints bs c r).Nodup := by
  induction bs generalizing r with
  | nil => simp [spritePoints]
  | cons b bs ih =>
    simp only [List.length_cons] at h
    rw [spritePoints, List.nodup_append]
    refine ⟨rowPoints_nodup _ _ _ (by simp [spritePixels]), ih (r + 1) (by omega), ?_⟩
    rintro p hp q hq rfl
    obtain ⟨-, -, -, h1⟩ := mem_rowPoints.mp hp
    obtain ⟨row, b', j, hb, -, -, h2⟩ := mem_spritePoints.mp hq
    have hlt := (List.getElem?_eq_some_iff.mp hb).1
    omega

/-! ### Toggling distinct pixels -/

theorem togglePoints_pixel (ps : List (Fin 64 × Fin 32)) (hn : ps.Nodup) (d : Drawing) (c : Fin 64) (r : Fin 32) :
    (togglePoints ps d).1.pixel c r = (d.1.pixel c r ^^ decide ((c, r) ∈ ps)) := by
  induction ps generalizing d with
  | nil => simp [togglePoints]
  | cons p ps ih =>
    obtain ⟨hp, hn⟩ := List.nodup_cons.mp hn
    rw [togglePoints, List.foldl_cons, ← togglePoints, ih hn]
    by_cases hc : (c, r) = p
    · subst hc
      simp [togglePixel, hp]
    · have : ¬ (c = p.1 ∧ r = p.2) := fun h => hc (Prod.ext h.1 h.2)
      simp [togglePixel, this, hc]

theorem togglePoints_collision (ps : List (Fin 64 × Fin 32)) (hn : ps.Nodup) (d : Drawing) :
    (togglePoints ps d).2 = true ↔ d.2 = true ∨ ∃ p ∈ ps, d.1.pixel p.1 p.2 = true := by
  induction ps generalizing d with
  | nil => simp [togglePoints]
  | cons p ps ih =>
    obtain ⟨hp, hn⟩ := List.nodup_cons.mp hn
    rw [togglePoints, List.foldl_cons, ← togglePoints, ih hn]
    have hsame : ∀ q ∈ ps, (togglePixel p.1 p.2 d).1.pixel q.1 q.2 = d.1.pixel q.1 q.2 := by
      intro q hq
      have : ¬ (q.1 = p.1 ∧ q.2 = p.2) := fun h => hp (Prod.ext h.1 h.2 ▸ hq)
      simp [togglePixel, this]
    have hx : (∃ q ∈ ps, (togglePixel p.1 p.2 d).1.pixel q.1 q.2 = true) ↔ ∃ q ∈ ps, d.1.pixel q.1 q.2 = true :=
      ⟨fun ⟨q, hq, h⟩ => ⟨q, hq, hsame q hq ▸ h⟩, fun ⟨q, hq, h⟩ => ⟨q, hq, (hsame q hq).symm ▸ h⟩⟩
    rw [hx]
    simp [togglePixel, or_assoc]

/-- Each pixel after a sprite is drawn (R172). -/
theorem drawRows_pixel (bs : List Byte) (cx cy : Nat) (h : bs.length ≤ 32) (d : Drawing) (c : Fin 64) (r : Fin 32) :
    (drawRows bs cx cy d).1.pixel c r = (d.1.pixel c r ^^ decide ((c, r) ∈ spritePoints bs cx cy)) := by
  rw [drawRows_eq, togglePoints_pixel _ (spritePoints_nodup bs cx cy h)]

/-- Whether a drawn sprite turned a set pixel off (R172). -/
theorem drawRows_collision (bs : List Byte) (cx cy : Nat) (h : bs.length ≤ 32) (d : Drawing) :
    (drawRows bs cx cy d).2 = true ↔ d.2 = true ∨ ∃ p ∈ spritePoints bs cx cy, d.1.pixel p.1 p.2 = true := by
  rw [drawRows_eq, togglePoints_collision _ (spritePoints_nodup bs cx cy h)]

end Sys2Proof.Machine
end

