-- ==== Sys2Proof/Laws/PerInstr.lean ====
section
/-! SUPPORT. Per instruction: the opcode that the encoder gives a well-formed instruction matches the instruction's row of
30_encoding.md R76. -/

namespace Sys2Proof.Laws.RowMatch

/-- The encoded instruction has the fixed bits of its row. -/
def Statement (i : Instr) : Prop := i.wellFormed = true → i.row.matches (encode i) = true

theorem formatA {o : Nat} {nnn p : Word} (ho : o < 16) (hp : p.toNat = 4096 * o) (h : decide (nnn.toNat < 4096) = true) :
    (OpcodeRow.mk 0xF000 p).matches (Sys2Proof.formatA o nnn) = true := by
  have hn := of_decide_eq_true h
  rw [matches_F000, formatA_toNat ho hn]
  omega

theorem formatXK {o : Nat} {p : Word} (x : RegIdx) (kk : Byte) (ho : o < 16) (hp : p.toNat = 4096 * o) :
    (OpcodeRow.mk 0xF000 p).matches (Sys2Proof.formatXK o x kk) = true := by
  have := x.isLt
  have := kk.isLt
  rw [matches_F000, formatXK_toNat x kk ho]
  omega

theorem formatX {o : Nat} {p : Word} (x : RegIdx) (m : Byte) (ho : o < 16) (hp : p.toNat = 4096 * o + m.toNat) :
    (OpcodeRow.mk 0xF0FF p).matches (Sys2Proof.formatXK o x m) = true := by
  have := x.isLt
  have := m.isLt
  rw [matches_F0FF, formatXK_toNat x m ho]
  omega

theorem formatXY {o n : Nat} {p : Word} (x y : RegIdx) (ho : o < 16) (hn : n < 16) (hp : p.toNat = 4096 * o + n) :
    (OpcodeRow.mk 0xF00F p).matches (Sys2Proof.formatXYN o x y n) = true := by
  have := x.isLt
  have := y.isLt
  rw [matches_F00F, formatXYN_toNat x y ho hn]
  omega

theorem formatXYN {o n : Nat} {p : Word} (x y : RegIdx) (ho : o < 16) (hp : p.toNat = 4096 * o)
    (h : decide (n < 16) = true) : (OpcodeRow.mk 0xF000 p).matches (Sys2Proof.formatXYN o x y n) = true := by
  have hn := of_decide_eq_true h
  have := x.isLt
  have := y.isLt
  rw [matches_F000, formatXYN_toNat x y ho hn]
  omega

theorem op00E0 : Statement (.op00E0) := fun _ => by decide
theorem op00EE : Statement (.op00EE) := fun _ => by decide
theorem op1nnn (nnn : Word) : Statement (.op1nnn nnn) := formatA (by decide) rfl
theorem op2nnn (nnn : Word) : Statement (.op2nnn nnn) := formatA (by decide) rfl
theorem op3xkk (x : RegIdx) (kk : Byte) : Statement (.op3xkk x kk) := fun _ => formatXK x kk (by decide) rfl
theorem op4xkk (x : RegIdx) (kk : Byte) : Statement (.op4xkk x kk) := fun _ => formatXK x kk (by decide) rfl
theorem op5xy0 (x y : RegIdx) : Statement (.op5xy0 x y) := fun _ => formatXY x y (by decide) (by decide) rfl
theorem op6xkk (x : RegIdx) (kk : Byte) : Statement (.op6xkk x kk) := fun _ => formatXK x kk (by decide) rfl
theorem op7xkk (x : RegIdx) (kk : Byte) : Statement (.op7xkk x kk) := fun _ => formatXK x kk (by decide) rfl
theorem op8xy0 (x y : RegIdx) : Statement (.op8xy0 x y) := fun _ => formatXY x y (by decide) (by decide) rfl
theorem op8xy1 (x y : RegIdx) : Statement (.op8xy1 x y) := fun _ => formatXY x y (by decide) (by decide) rfl
theorem op8xy2 (x y : RegIdx) : Statement (.op8xy2 x y) := fun _ => formatXY x y (by decide) (by decide) rfl
theorem op8xy3 (x y : RegIdx) : Statement (.op8xy3 x y) := fun _ => formatXY x y (by decide) (by decide) rfl
theorem op8xy4 (x y : RegIdx) : Statement (.op8xy4 x y) := fun _ => formatXY x y (by decide) (by decide) rfl
theorem op8xy5 (x y : RegIdx) : Statement (.op8xy5 x y) := fun _ => formatXY x y (by decide) (by decide) rfl
theorem op8xy6 (x y : RegIdx) : Statement (.op8xy6 x y) := fun _ => formatXY x y (by decide) (by decide) rfl
theorem op8xy7 (x y : RegIdx) : Statement (.op8xy7 x y) := fun _ => formatXY x y (by decide) (by decide) rfl
theorem op8xyE (x y : RegIdx) : Statement (.op8xyE x y) := fun _ => formatXY x y (by decide) (by decide) rfl
theorem op9xy0 (x y : RegIdx) : Statement (.op9xy0 x y) := fun _ => formatXY x y (by decide) (by decide) rfl
theorem opAnnn (nnn : Word) : Statement (.opAnnn nnn) := formatA (by decide) rfl
theorem opBnnn (nnn : Word) : Statement (.opBnnn nnn) := formatA (by decide) rfl
theorem opCxkk (x : RegIdx) (kk : Byte) : Statement (.opCxkk x kk) := fun _ => formatXK x kk (by decide) rfl
theorem opDxyn (x y : RegIdx) (n : Nat) : Statement (.opDxyn x y n) := formatXYN x y (by decide) rfl
theorem opEx9E (x : RegIdx) : Statement (.opEx9E x) := fun _ => formatX x _ (by decide) rfl
theorem opExA1 (x : RegIdx) : Statement (.opExA1 x) := fun _ => formatX x _ (by decide) rfl
theorem opFx07 (x : RegIdx) : Statement (.opFx07 x) := fun _ => formatX x _ (by decide) rfl
theorem opFx0A (x : RegIdx) : Statement (.opFx0A x) := fun _ => formatX x _ (by decide) rfl
theorem opFx15 (x : RegIdx) : Statement (.opFx15 x) := fun _ => formatX x _ (by decide) rfl
theorem opFx18 (x : RegIdx) : Statement (.opFx18 x) := fun _ => formatX x _ (by decide) rfl
theorem opFx1E (x : RegIdx) : Statement (.opFx1E x) := fun _ => formatX x _ (by decide) rfl
theorem opFx29 (x : RegIdx) : Statement (.opFx29 x) := fun _ => formatX x _ (by decide) rfl
theorem opFx33 (x : RegIdx) : Statement (.opFx33 x) := fun _ => formatX x _ (by decide) rfl
theorem opFx55 (x : RegIdx) : Statement (.opFx55 x) := fun _ => formatX x _ (by decide) rfl
theorem opFx65 (x : RegIdx) : Statement (.opFx65 x) := fun _ => formatX x _ (by decide) rfl

end Sys2Proof.Laws.RowMatch
end

