-- ==== Sys2Proof/Laws/Step.lean ====
section
/-! SUPPORT. What a tick and a step can do, said once. -/

namespace Sys2Proof.Machine

/-- A state that can fetch a decodable word, in terms of the two bytes at PC (30_encoding.md R71). -/
theorem runsNext_iff {s : State} {i : Instr} :
    s.runsNext i ↔ s.pc.toNat ≤ 4094 ∧
      decodeWord (joinBytes (s.byteAt s.pc.toNat) (s.byteAt (s.pc.toNat + 1))) = .ok i := by
  unfold State.runsNext
  constructor
  · rintro ⟨op, hf, hd⟩
    obtain ⟨hp, rfl⟩ := fetch_eq_next.mp hf
    exact ⟨hp, hd⟩
  · rintro ⟨hp, hd⟩
    exact ⟨_, fetch_eq_next.mpr ⟨hp, rfl⟩, hd⟩

/-- A tick about to run `i` is `exec i` on the state with the post-fetch PC (R70). -/
theorem tick_of_runsNext {s : State} {i : Instr} (h : s.runsNext i) :
    tick s = andThen (exec i (s.setPc (s.pc + 2))) fun t => .next (tickReply i s, t) := by
  obtain ⟨op, hf, hd⟩ := h
  simp [tick, hf, executeWord, hd]

/-- A tick that answers runs one decoded instruction. -/
theorem tick_eq_next {s t : State} {r : Reply} :
    tick s = .next (r, t) ↔
      ∃ i, s.runsNext i ∧ exec i (s.setPc (s.pc + 2)) = .next t ∧ r = tickReply i s := by
  constructor
  · intro h
    obtain ⟨op, hf, he⟩ := andThen_eq_next.mp h
    unfold executeWord at he
    split at he
    · exact absurd he raise_ne_next
    · rename_i i hd
      obtain ⟨u, hu, hr⟩ := andThen_eq_next.mp he
      simp only [Host.Outcome.next.injEq, Prod.mk.injEq] at hr
      exact ⟨i, ⟨op, hf, hd⟩, hr.2 ▸ hu, hr.1.symm⟩
  · rintro ⟨i, hi, hx, rfl⟩
    rw [tick_of_runsNext hi, hx, andThen_next]

/-- A tick that ends in an error: of the fetch, of the decoder, or of the one decoded instruction (60_exceptions.md R205). -/
theorem tick_eq_fault {s : State} {e : Fault} :
    tick s = .fault e ↔
      fetch s = .fault e ∨
      (∃ op, fetch s = .next op ∧ (¬ ∃ i, decodeWord op = .ok i) ∧ e = .invalidOpcode op s.pc) ∨
      ∃ i, s.runsNext i ∧ exec i (s.setPc (s.pc + 2)) = .fault e := by
  unfold tick
  rw [andThen_eq_fault]
  refine or_congr Iff.rfl ⟨?_, ?_⟩
  · rintro ⟨op, hf, he⟩
    unfold executeWord at he
    split at he
    · rename_i hd
      exact .inl ⟨op, hf, by simp [hd], (raise_eq_fault.mp he).symm⟩
    · rename_i i hd
      rcases andThen_eq_fault.mp he with hx | ⟨_, -, h⟩
      · exact .inr ⟨i, ⟨op, hf, hd⟩, hx⟩
      · cases h
  · rintro (⟨op, hf, hd, rfl⟩ | ⟨i, ⟨op, hf, hd⟩, hx⟩)
    · refine ⟨op, hf, ?_⟩
      unfold executeWord
      cases h : decodeWord op with
      | error _ => rfl
      | ok i => exact absurd ⟨i, h⟩ hd
    · exact ⟨op, hf, by rw [executeWord, hd]; exact andThen_eq_fault.mpr (.inl hx)⟩

/-- A byte of memory is what a fetch of its address reads (20_memory.md R54). -/
theorem fetchReads_byteAt (s : State) {a : Nat} (ha : a < 4096) : FetchReads s a (s.byteAt a).toNat := by
  have pc_toNat : ∀ p ≤ 4095, (BitVec.ofNat 16 p).toNat = p := fun p hp => by rw [BitVec.toNat_ofNat]; omega
  refine ⟨fun h => ⟨_, fetch_eq_next.mpr ⟨?_, rfl⟩, ?_⟩, fun h => ⟨_, fetch_eq_next.mpr ⟨?_, rfl⟩, ?_⟩⟩ <;>
    simp only [State.setPc_pc, State.setPc_byteAt, joinBytes_toNat, pc_toNat a (by omega), pc_toNat (a - 1) (by omega)]
  · exact h
  · have := (s.byteAt (a + 1)).isLt
    omega
  · omega
  · rw [show a - 1 + 1 = a by omega]
    have := (s.byteAt a).isLt
    omega

/-- A step that answers serves one command of the host. -/
theorem step_eq_next {s t : State} :
    step s = .next t ↔ ∃ r, serve (nextCommand s) (popSchedule s) = .next (r, t) := by
  unfold step
  rw [andThen_eq_next]
  constructor
  · rintro ⟨⟨r, u⟩, hs, hu⟩
    exact ⟨r, by rw [hs, ← (Host.Outcome.next.inj hu)]⟩
  · rintro ⟨r, hs⟩
    exact ⟨(r, t), hs, rfl⟩

/-- With no command listed, the host ticks. -/
theorem step_of_schedule_nil {s : State} (h : s.schedule = []) : step s = andThen (tick s) fun r => .next r.2 := by
  have hp : popSchedule s = s := by
    unfold popSchedule State.setSchedule
    cases s
    simp_all
  simp [step, nextCommand, h, hp, serve]

/-- The result of a step about to run `i`, with no command listed, is that of `exec i`. -/
theorem step_of_runsNext {s : State} {i : Instr} (hs : s.schedule = []) (h : s.runsNext i) :
    step s = exec i (s.setPc (s.pc + 2)) := by
  rw [step_of_schedule_nil hs, tick_of_runsNext h]
  cases exec i (s.setPc (s.pc + 2)) <;> rfl

/-- The placed word is the one the next step fetches (notes/assumptions/7.md). -/
theorem fetch_withFetchWord (s : State) (w : Nat) : fetch (s.withFetchWord 16 w) = .next (BitVec.ofNat 16 w) := by
  have hpc : (fetchableOrOrigin s.pc).toNat ≤ 4094 := by
    unfold fetchableOrOrigin
    split
    · assumption
    · decide
  have hw : tableWord 16 w = BitVec.ofNat 16 w := by
    apply BitVec.eq_of_toNat_eq
    simp [tableWord]
  refine fetch_eq_next.mpr ⟨by simpa [State.withFetchWord] using hpc, ?_⟩
  simp only [State.withFetchWord, hw, State.setBytes_pc, State.setPc_pc, State.setBytes_byteAt]
  generalize BitVec.ofNat 16 w = op
  simpa [wordBytes] using (joinBytes_wordBytes op).symm

end Sys2Proof.Machine
end

