-- ==== Sys2Proof/Tests/Slice0.lean ====
section
/-! SUPPORT. Tests. Every expected result stands in the spec: the bit patterns of 30_encoding.md R73 and of the instruction rules,
the vectors W1 to W8 and V-... of 95_test_vectors.md, named in a comment. Then one or more witnesses for every statement that has
hypotheses: states and operands that meet them together. -/

namespace Sys2Proof.Tests

open Sys2Proof Sys2Proof.Machine

/-! ### Looking at outcomes -/

/-- What a next state shows. -/
def seen {σ α : Type} (o : Host.Outcome σ Fault Refusal) (f : σ → α) : Option α :=
  match o with
  | .next t => some (f t)
  | _ => none

/-- The error of an outcome. -/
def errorOf {σ : Type} (o : Host.Outcome σ Fault Refusal) : Option Fault :=
  match o with
  | .fault e => some e
  | _ => none

/-- A state with the word `w` at the address `p` and PC there. -/
def placed (s : State) (p : Word) (w : Nat) : State := (s.setPc p).withFetchWord 16 w

/-- The state after reset with two registers set. -/
def regs2 (x : RegIdx) (a : Byte) (y : RegIdx) (b : Byte) : State := (State.reset.setReg x a).setReg y b

/-- The step on the word `w` at 0x200. -/
def run (s : State) (w : Nat) : Host.Outcome State Fault Refusal := step (placed s 0x200 w)

theorem runsNext_placed {s : State} {p : Word} {w : Nat} {i : Instr} (h : decodeWord (BitVec.ofNat 16 w) = .ok i) :
    (placed s p w).runsNext i :=
  ⟨_, fetch_withFetchWord _ w, h⟩

/-! ### Ill-formed terms are refused -/

theorem test_wf_jump_address_refused : Instr.wellFormed (.op1nnn 4096) = false := by decide
theorem test_wf_call_address_refused : Instr.wellFormed (.op2nnn 0xFFFF) = false := by decide
theorem test_wf_index_address_refused : Instr.wellFormed (.opAnnn 4096) = false := by decide
theorem test_wf_computed_jump_address_refused : Instr.wellFormed (.opBnnn 4096) = false := by decide
theorem test_wf_sprite_height_refused : Instr.wellFormed (.opDxyn 0 0 16) = false := by decide
theorem test_wf_largest_operands_accepted :
    Instr.wellFormed (.opBnnn 4095) = true ∧ Instr.wellFormed (.opDxyn 15 15 15) = true := by decide

/-! ### One word of every instruction, its bits written out from its rule's encoding -/

theorem test_decode_00E0 : decodeTableWord 16 0b0000000011100000 = some (.op00E0) := by decide
theorem test_decode_00EE : decodeTableWord 16 0b0000000011101110 = some (.op00EE) := by decide
theorem test_decode_1nnn : decodeTableWord 16 0b0001101010111100 = some (.op1nnn 0xABC) := by decide
theorem test_decode_2nnn : decodeTableWord 16 0b0010101010111100 = some (.op2nnn 0xABC) := by decide
theorem test_decode_3xkk : decodeTableWord 16 0b0011101001011100 = some (.op3xkk 0xA 0x5C) := by decide
theorem test_decode_4xkk : decodeTableWord 16 0b0100101001011100 = some (.op4xkk 0xA 0x5C) := by decide
theorem test_decode_5xy0 : decodeTableWord 16 0b0101101010110000 = some (.op5xy0 0xA 0xB) := by decide
theorem test_decode_6xkk : decodeTableWord 16 0b0110101001011100 = some (.op6xkk 0xA 0x5C) := by decide
theorem test_decode_7xkk : decodeTableWord 16 0b0111101001011100 = some (.op7xkk 0xA 0x5C) := by decide
theorem test_decode_8xy0 : decodeTableWord 16 0b1000101010110000 = some (.op8xy0 0xA 0xB) := by decide
theorem test_decode_8xy1 : decodeTableWord 16 0b1000101010110001 = some (.op8xy1 0xA 0xB) := by decide
theorem test_decode_8xy2 : decodeTableWord 16 0b1000101010110010 = some (.op8xy2 0xA 0xB) := by decide
theorem test_decode_8xy3 : decodeTableWord 16 0b1000101010110011 = some (.op8xy3 0xA 0xB) := by decide
theorem test_decode_8xy4 : decodeTableWord 16 0b1000101010110100 = some (.op8xy4 0xA 0xB) := by decide
theorem test_decode_8xy5 : decodeTableWord 16 0b1000101010110101 = some (.op8xy5 0xA 0xB) := by decide
theorem test_decode_8xy6 : decodeTableWord 16 0b1000101010110110 = some (.op8xy6 0xA 0xB) := by decide
theorem test_decode_8xy7 : decodeTableWord 16 0b1000101010110111 = some (.op8xy7 0xA 0xB) := by decide
theorem test_decode_8xyE : decodeTableWord 16 0b1000101010111110 = some (.op8xyE 0xA 0xB) := by decide
theorem test_decode_9xy0 : decodeTableWord 16 0b1001101010110000 = some (.op9xy0 0xA 0xB) := by decide
theorem test_decode_Annn : decodeTableWord 16 0b1010101010111100 = some (.opAnnn 0xABC) := by decide
theorem test_decode_Bnnn : decodeTableWord 16 0b1011101010111100 = some (.opBnnn 0xABC) := by decide
theorem test_decode_Cxkk : decodeTableWord 16 0b1100101001011100 = some (.opCxkk 0xA 0x5C) := by decide
theorem test_decode_Dxyn : decodeTableWord 16 0b1101101010110111 = some (.opDxyn 0xA 0xB 7) := by decide
theorem test_decode_Ex9E : decodeTableWord 16 0b1110101010011110 = some (.opEx9E 0xA) := by decide
theorem test_decode_ExA1 : decodeTableWord 16 0b1110101010100001 = some (.opExA1 0xA) := by decide
theorem test_decode_Fx07 : decodeTableWord 16 0b1111101000000111 = some (.opFx07 0xA) := by decide
theorem test_decode_Fx0A : decodeTableWord 16 0b1111101000001010 = some (.opFx0A 0xA) := by decide
theorem test_decode_Fx15 : decodeTableWord 16 0b1111101000010101 = some (.opFx15 0xA) := by decide
theorem test_decode_Fx18 : decodeTableWord 16 0b1111101000011000 = some (.opFx18 0xA) := by decide
theorem test_decode_Fx1E : decodeTableWord 16 0b1111101000011110 = some (.opFx1E 0xA) := by decide
theorem test_decode_Fx29 : decodeTableWord 16 0b1111101000101001 = some (.opFx29 0xA) := by decide
theorem test_decode_Fx33 : decodeTableWord 16 0b1111101000110011 = some (.opFx33 0xA) := by decide
theorem test_decode_Fx55 : decodeTableWord 16 0b1111101001010101 = some (.opFx55 0xA) := by decide
theorem test_decode_Fx65 : decodeTableWord 16 0b1111101001100101 = some (.opFx65 0xA) := by decide
theorem test_decode_rows_of_table : opcodeRows.length = 34 := by decide
/-- V-DEC-3 to V-DEC-8. -/
theorem test_decode_invalid : ([0x00E1, 0x0123, 0x5011, 0x800F, 0xE09F, 0xF0FF].map (decodeTableWord 16)).all (·.isNone) := by
  decide
theorem test_decode_truncated : (match decode [0x12] with | .error e => some e | .ok _ => none) = some .truncated := by decide

/-! ### Fetch and errors -/

/-- V-DEC-2, V-RST-2. -/
theorem test_invalid_opcode :
    errorOf (step State.reset) = some (.invalidOpcode 0x0000 0x200) := by decide
/-- V-DEC-10. -/
theorem test_fetch_at_last_byte :
    errorOf (step (State.reset.setPc 0xFFF)) = some (.memoryOutOfBounds 0x1000) := by decide
/-- V-DEC-11. -/
theorem test_fetch_outside :
    errorOf (step (State.reset.setPc 0x1000)) = some (.memoryOutOfBounds 0x1000) := by decide
/-- V-DEC-12. -/
theorem test_fetch_odd :
    seen (step (placed State.reset 0x201 0x6005)) (fun t => (t.reg 0, t.pc)) = some (5, 0x203) := by decide
/-- V-DEC-13. -/
theorem test_fetch_big_endian :
    seen (fetch ((State.reset.setBytes 0x300 [0x12, 0x34]).setPc 0x300)) id = some 0x1234 := by decide

/-! ### Control transfer -/

/-- V-CTL-1. -/
theorem test_00EE :
    seen (step (placed (State.reset.setStack [0x206]) 0x212 0x00EE)) (fun t => (t.pc, t.stack)) = some (0x206, []) := by decide
/-- V-CTL-2. -/
theorem test_00EE_empty :
    errorOf (run State.reset 0x00EE) = some .stackUnderflow := by decide
/-- V-CTL-3. -/
theorem test_1nnn :
    seen (run State.reset 0x1ABC) (·.pc) = some 0xABC := by decide
/-- V-CTL-5. -/
theorem test_2nnn :
    seen (step (placed State.reset 0x204 0x2210)) (fun t => (t.stack, t.pc)) = some ([0x206], 0x210) := by decide
/-- V-CTL-6. -/
theorem test_2nnn_full :
    errorOf (run (State.reset.setStack (List.replicate 16 0x202)) 0x2300) = some .stackOverflow := by decide
/-- V-CTL-7, V-CTL-8. -/
theorem test_3xkk :
    seen (run (State.reset.setReg 1 5) 0x3105) (·.pc) = some 0x204 ∧
    seen (run (State.reset.setReg 1 6) 0x3105) (·.pc) = some 0x202 := by decide
/-- V-CTL-9, V-CTL-10. -/
theorem test_4xkk :
    seen (run (State.reset.setReg 1 6) 0x4105) (·.pc) = some 0x204 ∧
    seen (run (State.reset.setReg 1 5) 0x4105) (·.pc) = some 0x202 := by decide
/-- V-CTL-11, V-CTL-12. -/
theorem test_5xy0 :
    seen (run (State.reset.setReg 2 9) 0x5220) (·.pc) = some 0x204 ∧
    seen (run (regs2 0 1 1 2) 0x5010) (·.pc) = some 0x202 := by decide
/-- V-CTL-13, V-CTL-14. -/
theorem test_9xy0 :
    seen (run (regs2 0 1 1 2) 0x9010) (·.pc) = some 0x204 ∧
    seen (run (State.reset.setReg 2 9) 0x9220) (·.pc) = some 0x202 := by decide
/-- V-CTL-16. -/
theorem test_Bnnn :
    seen (run (State.reset.setReg 0 0xFF) 0xBFFF) (·.pc) = some 0x10FE ∧
    errorOf (step (State.reset.setPc 0x10FE)) = some (.memoryOutOfBounds 0x10FE) := by decide
/-- V-CTL-17. -/
theorem test_skip_at_end_of_memory :
    seen (step (placed State.reset 0xFFE 0x3000)) (·.pc) = some 0x1002 := by decide

/-! ### Loads, ALU, flags, random -/

/-- V-ALU-1. -/
theorem test_6xkk :
    seen (run State.reset 0x609D) (·.reg 0) = some 0x9D := by decide
/-- V-ALU-2. -/
theorem test_7xkk :
    seen (run (regs2 0 0xFF 15 0x55) 0x7002) (fun t => (t.reg 0, t.reg 15)) = some (1, 0x55) := by decide
/-- V-ALU-3. -/
theorem test_7xkk_vf :
    seen (run (State.reset.setReg 15 0xFE) 0x7F03) (·.reg 15) = some 1 := by decide
/-- V-ALU-4. -/
theorem test_8xy0 :
    seen (run (State.reset.setReg 3 0x42) 0x8230) (·.reg 2) = some 0x42 := by decide
/-- V-ALU-5. -/
theorem test_8xy1 :
    seen (run ((regs2 0 0xF0 1 0x0F).setReg 15 0x55) 0x8011) (fun t => (t.reg 0, t.reg 15)) = some (0xFF, 0x55) := by decide
/-- V-ALU-6. -/
theorem test_8xy2 :
    seen (run (regs2 0 0xF3 1 0x3F) 0x8012) (·.reg 0) = some 0x33 := by decide
/-- V-ALU-7. -/
theorem test_8xy3 :
    seen (run (regs2 0 0xFF 1 0x0F) 0x8013) (·.reg 0) = some 0xF0 := by decide
/-- W1, V-ALU-9. -/
theorem test_8xy4 :
    seen (run (regs2 0 0xFF 1 0x01) 0x8014) (fun t => (t.reg 0, t.reg 15)) = some (0, 1) := by decide
/-- V-ALU-12, V-ALU-13. -/
theorem test_8xy4_vf :
    seen (run (regs2 15 0xFF 1 0x01) 0x8F14) (·.reg 15) = some 1 ∧
    seen (run (regs2 0 0x01 15 0xFF) 0x80F4) (fun t => (t.reg 0, t.reg 15)) = some (0, 1) := by decide
/-- W2, V-ALU-14. -/
theorem test_8xy5 :
    seen (run (regs2 0 0x01 1 0x02) 0x8015) (fun t => (t.reg 0, t.reg 15)) = some (0xFF, 0) := by decide
/-- V-ALU-15, V-ALU-17. -/
theorem test_8xy5_equal :
    seen (run (regs2 0 0x05 1 0x05) 0x8015) (fun t => (t.reg 0, t.reg 15)) = some (0, 1) ∧
    seen (run (regs2 15 0x03 1 0x05) 0x8F15) (·.reg 15) = some 0 := by decide
/-- V-ALU-19. -/
theorem test_8xy6 :
    seen (run (regs2 2 0x04 3 0xFF) 0x8236) (fun t => (t.reg 2, t.reg 15)) = some (2, 0) := by decide
/-- V-ALU-20, V-ALU-21. -/
theorem test_8xy6_vf :
    seen (run (State.reset.setReg 15 0x03) 0x8FF6) (·.reg 15) = some 1 ∧
    seen (run (regs2 15 0x02 1 0x99) 0x8F16) (·.reg 15) = some 0 := by decide
/-- V-ALU-22, V-ALU-23. -/
theorem test_8xy7 :
    seen (run (regs2 0 0x02 1 0x01) 0x8017) (fun t => (t.reg 0, t.reg 15)) = some (0xFF, 0) ∧
    seen (run (regs2 0 0x01 1 0x02) 0x8017) (fun t => (t.reg 0, t.reg 15)) = some (1, 1) := by decide
/-- V-ALU-24, V-ALU-25. -/
theorem test_8xyE :
    seen (run (State.reset.setReg 2 0x81) 0x820E) (fun t => (t.reg 2, t.reg 15)) = some (2, 1) ∧
    seen (run (State.reset.setReg 2 0x40) 0x820E) (fun t => (t.reg 2, t.reg 15)) = some (0x80, 0) := by decide
/-- V-ALU-26. -/
theorem test_8xyE_vf :
    seen (run (State.reset.setReg 15 0x80) 0x8FFE) (·.reg 15) = some 1 := by decide
/-- The state after reset in which the next draw is `r`. -/
def drawing (r : Byte) : State := State.construct Config.conventionalFont [] [r] 0

/-- V-ALU-27. -/
theorem test_Cxkk :
    seen (run (drawing 0xA7) 0xC30F) (·.reg 3) = some 0x07 := by decide

/-! ### The index register and memory -/

/-- V-MEM-1. -/
theorem test_Annn :
    seen (run State.reset 0xA300) (·.i) = some 0x300 := by decide
/-- V-MEM-3. -/
theorem test_Fx1E :
    seen (run ((State.reset.setI 0xFFFF).setReg 0 1) 0xF01E) (·.i) = some 0 := by decide
/-- V-MEM-4. -/
theorem test_Fx1E_no_flag :
    seen (run ((regs2 0 1 15 7).setI 0x0FFF) 0xF01E) (fun t => (t.i, t.reg 15)) = some (0x1000, 7) := by decide
/-- V-MEM-5, V-MEM-6. -/
theorem test_Fx29 :
    seen (run (State.reset.setReg 0 0x0A) 0xF029) (·.i) = some 0x032 ∧
    seen (run (State.reset.setReg 0 0xFF) 0xF029) (·.i) = some 0x4FB := by decide
/-- W6, V-MEM-7. -/
theorem test_Fx33 :
    seen (run ((State.reset.setReg 0 157).setI 0x300) 0xF033) (fun t => (t.bytesAt 0x300 3, t.i)) = some ([1, 5, 7], 0x300) := by decide
/-- V-MEM-9, V-MEM-10. -/
theorem test_Fx33_end_of_memory :
    seen (run ((State.reset.setReg 0 255).setI 0xFFD) 0xF033) (·.bytesAt 0xFFD 3) = some [2, 5, 5] ∧
    errorOf (run ((State.reset.setReg 0 1).setI 0xFFE) 0xF033) = some (.memoryOutOfBounds 0x1000) := by decide
/-- V-MEM-12. -/
theorem test_Fx55 :
    seen (run (((regs2 0 1 1 2).setReg 2 3).setI 0x400) 0xF255) (fun t => (t.bytesAt 0x400 4, t.i)) =
      some ([1, 2, 3, 0], 0x400) := by decide
/-- V-MEM-14, V-MEM-18. -/
theorem test_Fx55_end_of_memory :
    errorOf (run (State.reset.setI 0xFF1) 0xFF55) = some (.memoryOutOfBounds 0x1000) ∧
    seen (run (State.reset.setReg 0 0xAA) 0xF055) (·.byteAt 0) = some 0xAA := by decide
/-- V-MEM-15. -/
theorem test_Fx65 :
    seen (run ((State.reset.setBytes 0x300 [1, 5, 7, 9]).setI 0x300) 0xF265)
      (fun t => (t.reg 0, t.reg 1, t.reg 2, t.reg 3)) = some (1, 5, 7, 0) := by decide
/-- V-MEM-17. -/
theorem test_Fx65_end_of_memory :
    errorOf (run (State.reset.setI 0xFFF) 0xF165) = some (.memoryOutOfBounds 0x1000) := by decide
/-- A byte written back to what it reads as after reset leaves the memory as it was. -/
theorem test_written_default_is_unlisted :
    ((State.reset.setByte 0x300 7).setByte 0x300 0).mem = [] ∧ (State.reset.setByte 0x000 0xF0).mem = [] := by decide

/-! ### The framebuffer -/

/-- The columns of a row that are set. -/
def columns (s : State) (r : Fin 32) : List Nat := ((List.finRange 64).filter fun c => s.fb.pixel c r).map (·.val)

/-- The state of V-DSP-2 and V-DSP-3: an 8 by 1 sprite of 0xFF to be drawn at (63, 0). -/
def wide : State := (((State.reset.setReg 0 63).setReg 1 0).setI 0x300).setByte 0x300 0xFF

/-- V-DSP-1. -/
theorem test_00E0 :
    seen (run ((wide.setFb (wide.fb.setPixel 3 0 true)).setReg 15 9) 0x00E0) (fun t => (columns t 0, t.reg 15)) = some ([], 9) := by decide
/-- W5, V-DSP-2. -/
theorem test_Dxyn :
    seen (run wide 0xD011) (fun t => (columns t 0, t.reg 15)) = some ([0, 1, 2, 3, 4, 5, 6, 63], 0) := by decide
/-- V-DSP-3. -/
theorem test_Dxyn_collision :
    seen (run (wide.setFb (wide.fb.setPixel 3 0 true)) 0xD011) (fun t => (columns t 0, t.reg 15)) =
      some ([0, 1, 2, 4, 5, 6, 63], 1) := by decide
/-- V-DSP-4. -/
theorem test_Dxyn_rows_wrap :
    seen (run ((State.reset.setReg 1 31).setI 0x300 |>.setBytes 0x300 [0x80, 0x80]) 0xD012)
      (fun t => (columns t 31, columns t 0, t.reg 15)) = some ([0], [0], 0) := by decide
/-- V-DSP-7. -/
theorem test_Dxyn_no_rows :
    seen (run ((State.reset.setReg 15 9).setI 0xFFFF) 0xD120) (fun t => (t.fb, t.reg 15)) = some (Framebuffer.clear, 0) := by decide
/-- V-DSP-8. -/
theorem test_Dxyn_end_of_memory :
    errorOf (run (State.reset.setI 0xFFF) 0xD012) = some (.memoryOutOfBounds 0x1000) := by decide
/-- V-DSP-9; and by R172 alone (notes/assumptions/14.md): a 1 by 1 sprite on a set pixel turns it off with VF = 1, and drawn again turns
it on with VF = 0, where the sentence of R173 would have VF = 1. -/
theorem test_Dxyn_redraw :
    let s := (State.reset.setFb (State.reset.fb.setPixel 0 0 true)).setI 0x300 |>.setByte 0x300 0x80
    seen (andThen (run wide 0xD011) fun t => run t 0xD011) (fun t => (columns t 0, t.reg 15)) = some ([], 1) ∧
    seen (run s 0xD111) (fun t => (columns t 0, t.reg 15)) = some ([], 1) ∧
    seen (andThen (run s 0xD111) fun t => run t 0xD111) (fun t => (columns t 0, t.reg 15)) = some ([0], 0) := by decide

/-! ### Keypad and timers -/

/-- V-KEY-1, V-KEY-2. -/
theorem test_Ex9E :
    seen (step (placed ((State.reset.setReg 1 7).setKey 7 true) 0x300 0xE19E)) (·.pc) = some 0x304 ∧
    seen (step (placed (State.reset.setReg 1 7) 0x300 0xE19E)) (·.pc) = some 0x302 := by decide
/-- V-KEY-5. -/
theorem test_Ex9E_no_key :
    errorOf (run (State.reset.setReg 1 16) 0xE19E) = some (.invalidKeypadIndex 16) := by decide
/-- V-KEY-3, V-KEY-4. -/
theorem test_ExA1 :
    seen (step (placed (State.reset.setReg 1 7) 0x300 0xE1A1)) (·.pc) = some 0x304 ∧
    seen (step (placed ((State.reset.setReg 1 7).setKey 7 true) 0x300 0xE1A1)) (·.pc) = some 0x302 := by decide
/-- V-KEY-6. -/
theorem test_ExA1_no_key :
    errorOf (run (State.reset.setReg 1 0xFF) 0xE1A1) = some (.invalidKeypadIndex 255) := by decide
/-- W7, V-KEY-7. -/
theorem test_Fx0A_waits :
    seen (serve .tick (placed (State.reset.setReg 0 0x33) 0x200 0xF00A)) (fun r => (r.1, r.2.pc, r.2.reg 0)) =
      some (.waiting, 0x200, 0x33) := by decide
/-- V-KEY-8. -/
theorem test_Fx0A_lowest_key :
    seen (serve .tick (placed ((State.reset.setKey 3 true).setKey 9 true) 0x200 0xF50A)) (fun r => (r.1, r.2.pc, r.2.reg 5)) =
      some (.executed, 0x202, 3) := by decide
/-- V-TMR-1. -/
theorem test_Fx07 :
    seen (run (State.reset.setDt 0x3C) 0xF107) (fun t => (t.reg 1, t.dt)) = some (0x3C, 0x3C) := by decide
/-- V-TMR-2. -/
theorem test_Fx15 :
    seen (run (State.reset.setReg 0 7) 0xF015) (fun t => (t.dt, t.st)) = some (7, 0) := by decide
/-- V-TMR-3. -/
theorem test_Fx18 :
    seen (run (State.reset.setReg 0 2) 0xF018) (fun t => (t.st, t.dt)) = some (2, 0) := by decide

/-! ### The host's commands -/

/-- W8, V-TMR-4 to V-TMR-6. -/
theorem test_tick_timers :
    seen (serve .tickTimers (State.reset.setDt 5)) (fun r => (r.1, r.2.dt, r.2.st)) = some (.toneEnd false, 4, 0) ∧
    seen (serve .tickTimers (State.reset.setSt 1)) (fun r => (r.1, r.2.dt, r.2.st)) = some (.toneEnd true, 0, 0) ∧
    seen (serve .tickTimers (State.reset.setSt 2)) (fun r => (r.1, r.2.st)) = some (.toneEnd false, 1) := by decide
/-- V-KEY-10, V-KEY-11. -/
theorem test_press :
    errorOf (serve (.press 16) State.reset) = some (.invalidKeypadIndex 16) ∧
    seen (serve (.press 4) (State.reset.setKey 4 true)) (fun r => (r.1, r.2.key 4)) = some (.done, true) := by decide
/-- V-KEY-12. -/
theorem test_release :
    seen (serve (.release 4) (State.reset.setKey 4 true)) (fun r => (r.1, r.2.key 4)) = some (.done, false) := by decide
/-- V-KEY-12, V-KEY-13. -/
theorem test_is_pressed :
    seen (serve (.isPressed 4) State.reset) (·.1) = some (.keyState false) ∧
    errorOf (serve (.isPressed 20) State.reset) = some (.invalidKeypadIndex 20) := by decide
/-- V-RST-4. -/
theorem test_load :
    seen (serve (.load [0x00, 0xE0]) ((State.reset.setPc 0x345).setReg 0 9))
      (fun r => (r.2.bytesAt 0x200 3, r.2.pc, r.2.reg 0)) = some ([0x00, 0xE0, 0x00], 0x345, 9) := by decide
/-- V-RST-1, V-RST-3. -/
theorem test_reset :
    seen (serve .reset (((State.reset.setKey 1 true).setPc 0x345).setBytes 0x200 [1, 2])) (·.2) = some State.reset := by decide
/-- W3. -/
theorem test_display :
    seen (andThen (run wide 0x00E0) fun t => serve .display t) (·.1) = some (.grid Framebuffer.clear) := by decide
/-- A step takes the listed command first (notes/assumptions/3.md). -/
theorem test_step_serves_schedule :
    seen (step (State.reset.setSchedule [.press 7, .tick])) (fun t => (t.key 7, t.schedule)) = some (true, [.tick]) := by decide

/-! ### Witnesses: the hypotheses of the statements can be met -/

theorem witness_EncodedInstructionsDecodeBack :
    Instr.wellFormed (.op1nnn 4095) = true ∧ Instr.wellFormed (.opDxyn 15 15 15) = true :=
  by decide
theorem witness_DecodedWordsEncodeBack :
    decodeWord 0xDFFF = .ok (.opDxyn 15 15 15) :=
  rfl
theorem witness_DecoderFollowsOpcodeTable :
    decodeWord 0xF165 = .ok (.opFx65 1) ∧ (∃ r ∈ opcodeRows, r.matches 0xF165 = true) ∧
    fetch State.reset = .next 0x0000 ∧ ∀ r ∈ opcodeRows, r.matches 0x0000 = false :=
  ⟨rfl, by decide, rfl, by decide⟩
theorem witness_FetchJoinsTwoBytesOrFaults :
    (∃ s op i t, s.pc.toNat = 4094 ∧ fetch s = .next op ∧ decodeWord op = .ok i ∧
      exec i (s.setPc (BitVec.ofNat 16 (s.pc.toNat + 2))) = .next t) ∧
    (∃ s : State, s.pc.toNat = 4095) ∧ ∃ s : State, s.pc.toNat = 4096 :=
  ⟨⟨placed State.reset 4094 0x1ABC, _, _, _, rfl, fetch_withFetchWord _ _, rfl, rfl⟩, ⟨State.reset.setPc 4095, rfl⟩,
    ⟨State.reset.setPc 4096, rfl⟩⟩
theorem witness_StepRunsDecodedInstruction :
    (∃ s i, State.runsNext s i ∧ s.schedule = []) ∧
    ∃ s i rest, State.runsNext s i ∧ s.schedule = .tick :: rest :=
  ⟨⟨placed State.reset 4094 0x1ABC, _, runsNext_placed rfl, rfl⟩,
    ⟨(placed State.reset 0x200 0x1ABC).setSchedule [.tick, .tickTimers], .op1nnn 0xABC, [.tickTimers], ⟨0x1ABC, rfl, rfl⟩, rfl⟩⟩
theorem witness_TickRepliesExecutedOrWaiting :
    (∃ s x t, State.runsNext s (.opFx0A x) ∧ exec (.opFx0A x) (s.setPc (s.pc + 2)) = .next t ∧ ∀ k, s.key k = false) ∧
    (∃ s x t, State.runsNext s (.opFx0A x) ∧ exec (.opFx0A x) (s.setPc (s.pc + 2)) = .next t ∧ s.key 15 = true) ∧
    ∃ s e, State.runsNext s .op00EE ∧ exec .op00EE (s.setPc (s.pc + 2)) = .fault e :=
  ⟨⟨placed State.reset 0x200 0xF00A, 0, _, runsNext_placed rfl, rfl, by decide⟩,
    ⟨placed (State.reset.setKey 15 true) 0x200 0xF00A, 0, _, runsNext_placed rfl, rfl, by decide⟩,
    ⟨placed State.reset 0x200 0x00EE, _, runsNext_placed rfl, rfl⟩⟩
theorem witness_ErrorsChangeNoState :
    (transact .tick State.reset).1 = .fault (.invalidOpcode 0x0000 0x200) ∧
    (transact (.press 16) State.reset).1 = .fault (.invalidKeypadIndex 16) :=
  ⟨rfl, rfl⟩
theorem witness_TickErrorsAreExactlyTheListed :
    serve .tick (State.reset.setPc 4095) = .fault (.memoryOutOfBounds 4096) ∧
    serve .tick (State.reset.setPc 4097) = .fault (.memoryOutOfBounds 4097) ∧
    serve .tick State.reset = .fault (.invalidOpcode 0x0000 0x200) ∧
    serve .tick (placed State.reset 0x200 0x00EE) = .fault .stackUnderflow ∧
    serve .tick (placed (State.reset.setStack (List.replicate 16 0x202)) 0x200 0x2300) = .fault .stackOverflow ∧
    serve .tick (placed (State.reset.setReg 1 16) 0x200 0xE19E) = .fault (.invalidKeypadIndex 16) ∧
    serve .tick (placed (State.reset.setReg 1 255) 0x200 0xE1A1) = .fault (.invalidKeypadIndex 255) :=
  ⟨rfl, rfl, rfl, rfl, rfl, rfl, rfl⟩
/-- The accesses through I, at the first value of I outside. -/
theorem witness_TickErrorsAreExactlyTheListed_spans :
    serve .tick (placed (State.reset.setI 4094) 0x200 0xF033) = .fault (.memoryOutOfBounds 4096) ∧
    serve .tick (placed (State.reset.setI 4081) 0x200 0xFF55) = .fault (.memoryOutOfBounds 4096) ∧
    serve .tick (placed (State.reset.setI 4096) 0x200 0xF065) = .fault (.memoryOutOfBounds 4096) ∧
    serve .tick (placed (State.reset.setI 4082) 0x200 0xD01F) = .fault (.memoryOutOfBounds 4096) ∧
    serve .tick (placed (State.reset.setI 65535) 0x200 0xD011) = .fault (.memoryOutOfBounds 65535) :=
  ⟨rfl, rfl, rfl, rfl, rfl⟩
/-- The other direction: each cause can hold, at a boundary value. -/
theorem witness_TickErrorsAreExactlyTheListed_causes :
    (∃ s : State, 4094 < s.pc.toNat) ∧ (∃ s op, fetch s = .next op ∧ ¬ ∃ i, decodeWord op = .ok i) ∧
    (∃ s : State, s.runsNext .op00EE ∧ s.stack = []) ∧
    (∃ s : State, s.runsNext (.op2nnn 0x300) ∧ 16 ≤ s.stack.length) ∧
    (∃ s : State, s.runsNext (.opEx9E 1) ∧ 16 ≤ (s.reg 1).toNat) ∧
    (∃ s : State, s.runsNext (.opFx33 0) ∧ 4096 ≤ s.i.toNat + 2) ∧
    (∃ s : State, s.runsNext (.opFx55 15) ∧ 4096 ≤ s.i.toNat + (15 : RegIdx).val) ∧
    ∃ s : State, s.runsNext (.opDxyn 0 1 15) ∧ 0 < 15 ∧ 4096 < s.i.toNat + 15 :=
  ⟨⟨State.reset.setPc 4095, by decide⟩, ⟨State.reset, 0x0000, rfl, fun ⟨i, h⟩ => nomatch h⟩,
    ⟨placed State.reset 0x200 0x00EE, runsNext_placed rfl, rfl⟩,
    ⟨placed (State.reset.setStack (List.replicate 16 0x202)) 0x200 0x2300, runsNext_placed rfl, by decide⟩,
    ⟨placed (State.reset.setReg 1 16) 0x200 0xE19E, runsNext_placed rfl, by decide⟩,
    ⟨placed (State.reset.setI 4094) 0x200 0xF033, runsNext_placed rfl, by decide⟩,
    ⟨placed (State.reset.setI 4081) 0x200 0xFF55, runsNext_placed rfl, by decide⟩,
    ⟨placed (State.reset.setI 4082) 0x200 0xD01F, runsNext_placed rfl, by decide, by decide⟩⟩
theorem witness_ReturnPopsPc :
    (∃ s : State, s.stack = [] ++ [4096]) ∧ (∃ s : State, s.stack = List.replicate 15 0x202 ++ [2]) ∧
    ∃ s : State, s.runsNext .op00EE ∧ s.stack = [] :=
  ⟨⟨State.reset.setStack [4096], rfl⟩, ⟨State.reset.setStack (List.replicate 15 0x202 ++ [2]), rfl⟩,
    ⟨placed State.reset 0x200 0x00EE, runsNext_placed rfl, rfl⟩⟩
theorem witness_JumpSetsPc :
    (4095 < 4096) ∧ ∃ s : State, s.runsNext (.op1nnn s.pc) :=
  ⟨by decide, placed State.reset 0x200 0x1200, runsNext_placed rfl⟩
theorem witness_CallPushesReturnAddress :
    (4095 < 4096) ∧ (∃ s : State, s.stack.length = 15) ∧
    ∃ s : State, s.runsNext (.op2nnn (BitVec.ofNat 16 4095)) ∧ s.stack.length = 16 :=
  ⟨by decide, ⟨State.reset.setStack (List.replicate 15 0x202), rfl⟩,
    ⟨placed (State.reset.setStack (List.replicate 16 0x202)) 0x200 0x2FFF, runsNext_placed rfl, rfl⟩⟩
theorem witness_CallThenReturnResumesAfterCall :
    ∃ nnn s t u, exec (.op2nnn nnn) s = .next t ∧ u.stack = t.stack ∧ u ≠ t :=
  ⟨4095, State.reset, _, (State.reset.setReg 3 1).setStack [0x200], rfl, rfl, by decide⟩
theorem witness_ByteSkipsCompareVxWithKk :
    (State.reset.setReg 15 255).reg 15 = 255 ∧ State.reset.reg 15 ≠ 255 :=
  by decide
theorem witness_RegisterSkipsCompareVxWithVy :
    State.reset.reg 0 = State.reset.reg 15 ∧ (State.reset.setReg 15 255).reg 0 ≠ (State.reset.setReg 15 255).reg 15 :=
  by decide
theorem witness_ComputedJumpAddsV0 :
    (4095 < 4096) ∧ 4095 ≤ (State.reset.reg 0).toNat + 4095 ∧ ¬ 4095 ≤ (State.reset.reg 0).toNat + 4094 ∧
    4095 ≤ ((State.reset.setReg 0 255).reg 0).toNat + 3840 :=
  by decide
/-- For AddRegistersSetsCarry, SubtractionsSetNoBorrow and ShiftsPutOutBitInVf, whose result clause is for x other than 15. -/
theorem witness_FlagInstructions_x_is_not_15 :
    ((14 : RegIdx) ≠ 15) ∧ ((0 : RegIdx) ≠ 15) :=
  by decide
theorem witness_RandomByteIsMaskedAndFree :
    ∃ s : State, s.draws = 0xA7 :: [] :=
  ⟨drawing 0xA7, rfl⟩
theorem witness_IndexRegisterWrites :
    (4095 < 4096) :=
  by decide
theorem witness_DecimalDigitsAreStored :
    (∃ s : State, s.i.toNat + 2 = 4095) ∧ (∃ s : State, s.runsNext (.opFx33 15) ∧ s.i.toNat + 2 = 4096) ∧
    ∃ s : State, s.runsNext (.opFx33 0) ∧ s.i.toNat = 65535 :=
  ⟨⟨State.reset.setI 4093, rfl⟩, ⟨placed (State.reset.setI 4094) 0x200 0xFF33, runsNext_placed rfl, rfl⟩,
    ⟨placed (State.reset.setI 65535) 0x200 0xF033, runsNext_placed rfl, rfl⟩⟩
theorem witness_RegistersAreStoredFromI :
    (∃ s : State, s.i.toNat + (15 : RegIdx).val = 4095) ∧
    (∃ s : State, s.runsNext (.opFx55 15) ∧ s.i.toNat + (15 : RegIdx).val = 4096) ∧
    ∃ s : State, s.runsNext (.opFx55 0) ∧ s.i.toNat + (0 : RegIdx).val = 4096 :=
  ⟨⟨State.reset.setI 4080, rfl⟩, ⟨placed (State.reset.setI 4081) 0x200 0xFF55, runsNext_placed rfl, rfl⟩,
    ⟨placed (State.reset.setI 4096) 0x200 0xF055, runsNext_placed rfl, rfl⟩⟩
theorem witness_RegistersAreLoadedFromI :
    (∃ s : State, s.i.toNat + (15 : RegIdx).val = 4095) ∧
    (∃ s : State, s.runsNext (.opFx65 15) ∧ s.i.toNat + (15 : RegIdx).val = 4096) ∧
    ∃ s : State, s.runsNext (.opFx65 0) ∧ s.i.toNat + (0 : RegIdx).val = 4096 :=
  ⟨⟨State.reset.setI 4080, rfl⟩, ⟨placed (State.reset.setI 4081) 0x200 0xFF65, runsNext_placed rfl, rfl⟩,
    ⟨placed (State.reset.setI 4096) 0x200 0xF065, runsNext_placed rfl, rfl⟩⟩
theorem witness_StoredRegistersLoadBack :
    ∃ (x : RegIdx) (s t : State), exec (.opFx55 x) s = .next t ∧ s.i.toNat + x.val = 4095 :=
  ⟨15, State.reset.setI 4080, _, rfl, rfl⟩
theorem witness_WrittenBytesAreFetched :
    (∃ (x k : RegIdx) (s t : State), exec (.opFx55 x) s = .next t ∧ k ≤ x ∧ s.i.toNat + k.val = 4095) ∧
    (∃ (k : RegIdx) (s t : State), exec (.opFx55 0) s = .next t ∧ k ≤ 0 ∧ s.i.toNat = 0) ∧
    (∃ (x : RegIdx) (s t : State), exec (.opFx33 x) s = .next t ∧ s.i.toNat + 2 = 4095) ∧
    ∃ (rom : List Byte) (s t : State) (r : Reply) (j : Nat), serve (.load rom) s = .next (r, t) ∧ j < rom.length ∧ rom.length = 1 :=
  ⟨⟨15, 15, State.reset.setI 4080, _, rfl, by decide, rfl⟩, ⟨0, State.reset, _, rfl, by decide, rfl⟩,
    ⟨0, State.reset.setI 4093, _, rfl, rfl⟩, ⟨[0x12], State.reset, _, _, 0, rfl, by decide, rfl⟩⟩
theorem witness_CanonicalMemoriesReadingAlikeAreEqual :
    ∃ (font : Font) (m m' : Memory), m.wf font ∧ m'.wf font ∧ (∀ a, m.read font a = m'.read font a) ∧ m ≠ [] :=
  ⟨Config.conventionalFont, [(4095, 1)], [(4095, 1)], by decide, by decide, fun _ => rfl, by decide⟩
theorem witness_DrawTogglesSpritePixels :
    (15 < 16) ∧ (∃ s : State, s.i.toNat + 15 = 4096) ∧ (∃ s : State, s.i.toNat = 65535) ∧
    (∃ s c r, SpriteCovers s 0 1 1 c r ∧ s.fb.pixel c r = true) ∧
    (∃ s c r, SpriteCovers s 0 1 1 c r ∧ ∀ c r, s.fb.pixel c r = false) ∧
    ∃ s : State, s.runsNext (.opDxyn 0 1 1) ∧ 4096 < s.i.toNat + 1 :=
  ⟨by decide, ⟨State.reset.setI 4081, rfl⟩, ⟨State.reset.setI 65535, rfl⟩,
    ⟨wide.setFb (wide.fb.setPixel 3 0 true), 3, 0, ⟨0, by decide, 4, by decide, by decide, by decide, by decide⟩, by decide⟩,
    ⟨wide, 63, 0, ⟨0, by decide, 0, by decide, by decide, by decide, by decide⟩, fun c r => Framebuffer.clear_pixel c r⟩,
    ⟨placed (State.reset.setI 4096) 0x200 0xD011, runsNext_placed rfl, by decide⟩⟩
theorem witness_RedrawRestoresFramebuffer :
    (∃ s t, exec (.opDxyn 0 1 1) s = .next t ∧ ∃ c r, SpriteCovers s 0 1 1 c r ∧ s.fb.pixel c r = false) ∧
    ∃ s t, exec (.opDxyn 0 1 15) s = .next t ∧ s.i.toNat + 15 = 4096 ∧
      ∀ c r, SpriteCovers s 0 1 15 c r → s.fb.pixel c r = true :=
  ⟨⟨wide, _, rfl, 63, 0, ⟨0, by decide, 0, by decide, by decide, by decide, by decide⟩, Framebuffer.clear_pixel 63 0⟩,
    ⟨(State.reset.setI 4081).setFb (Vector.replicate 32 (Vector.replicate 64 true)), _, rfl, rfl,
      fun c r _ => by simp [Framebuffer.pixel]⟩⟩
theorem witness_KeySkipsTestKeyVx :
    (∃ s : State, (s.reg 15).toNat = (15 : Fin 16).val ∧ s.key 15 = true) ∧
    (∃ s : State, (s.reg 0).toNat = (0 : Fin 16).val ∧ s.key 0 = false) ∧
    (∃ s : State, s.runsNext (.opEx9E 1) ∧ (s.reg 1).toNat = 16) ∧
    ∃ s : State, s.runsNext (.opExA1 1) ∧ (s.reg 1).toNat = 255 :=
  ⟨⟨(State.reset.setReg 15 15).setKey 15 true, by decide⟩, ⟨State.reset, by decide⟩,
    ⟨placed (State.reset.setReg 1 16) 0x200 0xE19E, runsNext_placed rfl, rfl⟩,
    ⟨placed (State.reset.setReg 1 255) 0x200 0xE1A1, runsNext_placed rfl, rfl⟩⟩
theorem witness_KeyWaitTakesLowestKeyOrRepeats :
    (∃ s : State, s.key 15 = true ∧ (∀ j < 15, s.key j = false) ∧ s.runsNext (.opFx0A 15)) ∧
    ∃ s : State, (∀ k, s.key k = false) ∧ s.runsNext (.opFx0A 0) :=
  ⟨⟨placed (State.reset.setKey 15 true) 0x200 0xFF0A, by decide, by decide, runsNext_placed rfl⟩,
    ⟨placed State.reset 0x200 0xF00A, by decide, runsNext_placed rfl⟩⟩
theorem witness_LoadCopiesRom :
    (∃ rom : List Byte, rom.length = 3584) ∧ (∃ rom : List Byte, rom.length = 0) ∧ ∃ rom : List Byte, rom.length = 3585 :=
  ⟨⟨List.replicate 3584 0, by rw [List.length_replicate]⟩, ⟨[], rfl⟩, ⟨List.replicate 3585 0, by rw [List.length_replicate]⟩⟩
theorem witness_KeypadCommandsSetClearQuery :
    (15 < 16) ∧ (16 ≤ 16) :=
  by decide
theorem witness_DisplayShowsFramebuffer :
    ∃ t, exec .op00E0 wide = .next t :=
  ⟨_, rfl⟩
theorem witness_StepServesListedCommand :
    (∃ (s : State) (c : HostCommand) (rest : List HostCommand) (r : Reply) (t : State), s.schedule = c :: rest ∧ serve c (s.setSchedule rest) = .next (r, t)) ∧
    ∃ (s : State) (c : HostCommand) (rest : List HostCommand) (e : Fault), s.schedule = c :: rest ∧ serve c (s.setSchedule rest) = .fault e :=
  ⟨⟨State.reset.setSchedule [.press 15], _, _, _, _, rfl, rfl⟩, ⟨State.reset.setSchedule [.press 16, .reset], _, _, _, rfl, rfl⟩⟩
theorem witness_EachPartHasItsWriters :
    (∃ s t, exec (.op2nnn 0x300) s = .next t ∧ t.stack ≠ s.stack) ∧ (∃ s t, exec (.opAnnn 0x300) s = .next t ∧ t.i ≠ s.i) ∧
    (∃ s t, exec (.opFx15 0) s = .next t ∧ t.dt ≠ s.dt) ∧ (∃ s t, exec (.opFx18 0) s = .next t ∧ t.st ≠ s.st) ∧
    (∃ s t, exec (.opDxyn 0 1 1) s = .next t ∧ t.fb ≠ s.fb) ∧ (∃ s t, exec (.opFx33 0) s = .next t ∧ t.mem ≠ s.mem) ∧
    ∃ s t, exec (.opCxkk 0 0) s = .next t ∧ ¬ (t.draws = s.draws ∧ t.drawCount = s.drawCount) :=
  ⟨⟨State.reset, _, rfl, by decide⟩, ⟨State.reset, _, rfl, by decide⟩, ⟨State.reset.setReg 0 1, _, rfl, by decide⟩,
    ⟨State.reset.setReg 0 1, _, rfl, by decide⟩, ⟨wide, _, rfl, by decide⟩, ⟨State.reset, _, rfl, by decide⟩,
    ⟨State.reset, _, rfl, by decide⟩⟩
theorem witness_EachPartHasItsWriters_registers_and_pc :
    (∃ s t, exec (.op6xkk 15 1) s = .next t ∧ t.reg 15 ≠ s.reg 15) ∧ (∃ s t, exec (.op8xy4 0 1) s = .next t ∧ t.reg 15 ≠ s.reg 15) ∧
    (∃ s t, exec (.opFx65 15) s = .next t ∧ t.reg 15 ≠ s.reg 15) ∧ (∃ s t, exec (.opFx0A 0) s = .next t ∧ t.reg 0 ≠ s.reg 0) ∧
    (∃ s t, exec (.op3xkk 0 0) s = .next t ∧ t.pc ≠ s.pc) ∧ ∃ s t, exec (.opFx0A 0) s = .next t ∧ t.pc ≠ s.pc :=
  ⟨⟨State.reset, _, rfl, by decide⟩, ⟨regs2 0 255 1 1, _, rfl, by decide⟩, ⟨State.reset, _, rfl, by decide⟩,
    ⟨State.reset.setKey 15 true, _, rfl, by decide⟩, ⟨State.reset, _, rfl, by decide⟩, ⟨State.reset, _, rfl, by decide⟩⟩
theorem witness_OnlyFlagInstructionsWriteVfUnasked :
    ∃ s t, exec (.op8xy4 0 1) s = .next t ∧ t.reg 15 ≠ s.reg 15 :=
  ⟨regs2 0 255 1 1, _, rfl, by decide⟩
theorem witness_NoInstructionReadsSoundTimer :
    (∃ t, exec (.opFx07 1) (State.reset.setSt 3) = .next t) ∧ ∃ e, exec .op00EE (State.reset.setSt 3) = .fault e :=
  ⟨⟨_, rfl⟩, ⟨_, rfl⟩⟩
theorem witness_OnlyKeyInstructionsReadKeypad :
    (∀ x, Instr.op00EE ≠ .opEx9E x ∧ Instr.op00EE ≠ .opExA1 x ∧ Instr.op00EE ≠ .opFx0A x) ∧
    (∃ t, exec .op00EE (State.reset.setStack [2]) = .next t) ∧ ∃ e, exec .op00EE State.reset = .fault e :=
  ⟨fun _ => ⟨nofun, nofun, nofun⟩, ⟨_, rfl⟩, ⟨_, rfl⟩⟩
theorem witness_KeyWaitAndSelfJumpRepeatForever :
    (∃ s : State, s.schedule = [] ∧ s.runsNext (.opFx0A 0) ∧ ∀ k, s.key k = false) ∧
    ∃ s : State, s.schedule = [] ∧ s.runsNext (.op1nnn s.pc) :=
  ⟨⟨placed State.reset 0x200 0xF00A, rfl, runsNext_placed rfl, by decide⟩,
    ⟨placed State.reset 0x200 0x1200, rfl, runsNext_placed rfl⟩⟩
theorem witness_EveryStepKeepsInvariant :
    ∃ s t : State, s.Inv ∧ step s = .next t ∧ s.stack.length = 16 ∧ s.mem ≠ [] :=
  ⟨placed (State.reset.setStack (List.replicate 16 4096)) 4094 0x00EE, _,
    ⟨by decide, by decide, fun a ha => by rw [List.eq_of_mem_replicate (n := 16) ha]; decide, by decide⟩,
    rfl, rfl, by decide⟩

end Sys2Proof.Tests
end

/-! The keypad and the instructions (10_state.md R34). Every instruction but Ex9E, ExA1 and Fx0A commutes with setting a
key (`exec_setKey`), errors included. That no such instruction writes a key follows, because setting a key to the value it has is
no change. -/

namespace Sys2Proof.Machine

variable {s t : State} {k : Fin 16} {b : Bool}

/-! ### The shared operations commute with setting a key -/

@[simp] theorem State.setKey_self (s : State) (k : Fin 16) : s.setKey k (s.key k) = s := by
  simp [State.setKey, State.key]

@[simp] theorem State.setKey_bytesAt (s : State) (k : Fin 16) (b : Bool) (a len : Nat) :
    (s.setKey k b).bytesAt a len = s.bytesAt a len := by
  induction len generalizing a with
  | zero => rfl
  | succ len ih => simp [State.bytesAt, ih]

theorem State.setKey_setBytes (s : State) (k : Fin 16) (b : Bool) (a : Nat) (bs : List Byte) :
    (s.setKey k b).setBytes a bs = (s.setBytes a bs).setKey k b := by
  induction bs generalizing s a with
  | nil => rfl
  | cons c bs ih => exact ih (s.setByte a c) (a + 1)

/-- What comes after a check can be moved under it. -/
theorem andThen_check {α β : Type} {c : Prop} [Decidable c] (e : Fault) (o : Host.Outcome α Fault Refusal)
    (f : α → Host.Outcome β Fault Refusal) : andThen (check c e o) f = check c e (andThen o f) := by
  unfold check
  split <;> rfl

theorem andThen_checkSpan {α β : Type} (a len : Nat) (o : Host.Outcome α Fault Refusal)
    (f : α → Host.Outcome β Fault Refusal) : andThen (checkSpan a len o) f = checkSpan a len (andThen o f) :=
  andThen_check _ o f

theorem skipIf_setKey (c : Bool) :
    skipIf c (s.setKey k b) = andThen (skipIf c s) fun t => .next (t.setKey k b) := by
  cases c <;> rfl

theorem exec00EE_setKey : exec00EE (s.setKey k b) = andThen (exec00EE s) fun t => .next (t.setKey k b) := by
  unfold exec00EE pop
  rw [State.setKey_stack]
  split <;> rfl

theorem exec2nnn_setKey (nnn : Word) :
    exec2nnn nnn (s.setKey k b) = andThen (exec2nnn nnn s) fun t => .next (t.setKey k b) := by
  simp only [exec2nnn, push, andThen_check]
  rfl

theorem execDxyn_setKey (x y : RegIdx) (n : Nat) :
    execDxyn x y n (s.setKey k b) = andThen (execDxyn x y n s) fun t => .next (t.setKey k b) := by
  simp only [execDxyn, andThen_checkSpan, State.setKey_bytesAt]
  rfl

theorem execFx33_setKey (x : RegIdx) :
    execFx33 x (s.setKey k b) = andThen (execFx33 x s) fun t => .next (t.setKey k b) := by
  simp only [execFx33, andThen_checkSpan, State.setKey_setBytes]
  rfl

theorem execFx55_setKey (x : RegIdx) :
    execFx55 x (s.setKey k b) = andThen (execFx55 x s) fun t => .next (t.setKey k b) := by
  simp only [execFx55, andThen_checkSpan, State.setKey_setBytes]
  rfl

theorem execFx65_setKey (x : RegIdx) :
    execFx65 x (s.setKey k b) = andThen (execFx65 x s) fun t => .next (t.setKey k b) := by
  simp only [execFx65, andThen_checkSpan]
  rfl

/-! ### The instructions -/

/-- An instruction that does not read the keypad does the same whatever state a key is in, and leaves the key in it. -/
theorem exec_setKey {i : Instr} (hi : ∀ x, i ≠ .opEx9E x ∧ i ≠ .opExA1 x ∧ i ≠ .opFx0A x) :
    exec i (s.setKey k b) = andThen (exec i s) fun t => .next (t.setKey k b) := by
  cases i with
  | opEx9E x => exact absurd rfl (hi x).1
  | opExA1 x => exact absurd rfl (hi x).2.1
  | opFx0A x => exact absurd rfl (hi x).2.2
  | op3xkk | op4xkk | op5xy0 | op9xy0 => exact skipIf_setKey _
  | op00EE => exact exec00EE_setKey
  | op2nnn nnn => exact exec2nnn_setKey nnn
  | opDxyn x y n => exact execDxyn_setKey x y n
  | opFx33 x => exact execFx33_setKey x
  | opFx55 x => exact execFx55_setKey x
  | opFx65 x => exact execFx65_setKey x
  -- The others answer `.next` of an update of another field, computed without the keypad.
  | op00E0 | op1nnn | op6xkk | op7xkk | op8xy0 | op8xy1 | op8xy2 | op8xy3 | op8xy4 | op8xy5 | op8xy6 | op8xy7 | op8xyE
  | opAnnn | opBnnn | opCxkk | opFx07 | opFx15 | opFx18 | opFx1E | opFx29 => rfl

theorem skipIf_next_key {c : Bool} (h : skipIf c s = .next t) : t.key k = s.key k := by
  cases c <;> cases h <;> rfl

/-- A skip on a key named by an operand, as in Ex9E and ExA1, writes no key. -/
theorem andThen_skipIf_next_key {o : Host.Outcome (Fin 16) Fault Refusal} {c : Fin 16 → Bool}
    (h : (andThen o fun j => skipIf (c j) s) = .next t) : t.key k = s.key k := by
  obtain ⟨_, -, hskip⟩ := andThen_eq_next.mp h
  exact skipIf_next_key hskip

theorem execFx0A_next_key {x : RegIdx} (h : execFx0A x s = .next t) : t.key k = s.key k := by
  unfold execFx0A at h
  split at h <;> cases h <;> rfl

theorem exec_next_key_of_not_reader {i : Instr} (hi : ∀ x, i ≠ .opEx9E x ∧ i ≠ .opExA1 x ∧ i ≠ .opFx0A x)
    (h : exec i s = .next t) : t.key k = s.key k := by
  have hset := exec_setKey (s := s) (k := k) (b := s.key k) hi
  rw [State.setKey_self, h, andThen_next, Host.Outcome.next.injEq] at hset
  rw [hset, State.setKey_key, if_pos rfl]

/-- No instruction writes a key. -/
theorem exec_next_key {i : Instr} (h : exec i s = .next t) : t.key k = s.key k := by
  by_cases hi : ∀ x, i ≠ .opEx9E x ∧ i ≠ .opExA1 x ∧ i ≠ .opFx0A x
  · exact exec_next_key_of_not_reader hi h
  · obtain ⟨x, rfl | rfl | rfl⟩ : ∃ x, i = .opEx9E x ∨ i = .opExA1 x ∨ i = .opFx0A x := by
      simpa only [not_forall, not_and_or, not_not] using hi
    · exact andThen_skipIf_next_key h
    · exact andThen_skipIf_next_key h
    · exact execFx0A_next_key h

theorem setKey_changesOnly (s : State) (k : Fin 16) (b : Bool) :
    ChangesOnly (fun p => p = .key k) s (s.setKey k b) := by
  intro p hp
  cases p with
  | key j => exact (State.setKey_key s k b j).trans (if_neg fun hj => hp (congrArg Part.key hj))
  | rng => exact ⟨rfl, rfl⟩
  | reg | pc | index | stack | delay | sound | byte | pixel | font | schedule => rfl

/-- Settles O49: an instruction other than the three key instructions commutes with setting a key (`exec_setKey`), and no
instruction writes one (`exec_next_key`). -/
theorem onlyKeyInstructionsReadKeypad : Obligations.OnlyKeyInstructionsReadKeypad := by
  refine fun i s => ⟨fun t h k => exec_next_key h, fun k b hi => ⟨fun t h => ?_, fun e h => ?_⟩⟩
  · exact ⟨t.setKey k b, by rw [exec_setKey hi, h, andThen_next], setKey_changesOnly t k b⟩
  · rw [exec_setKey hi, h, andThen_fault, raise]

end Sys2Proof.Machine

/-! The opcode table and the decoder (30_encoding.md R75, R76). One equivalence per mask turns "the word matches the row" into
the opcode fields that the decoder selects by. From it follow both directions between the decoder and the table. That a word
matches one row at most is a fact about the 34 rows alone: two rows with a word in common agree on the bits that both fix, and no
two different rows of the table do. -/

namespace Sys2Proof

variable {op p : Word} {i : Instr} {r r' : OpcodeRow}

/-! ### Matching a row, in the fields the decoder selects by -/

theorem matches_F000_iff_fields :
    (OpcodeRow.mk 0xF000 p).matches op = true ↔ nibble1 op = p.toNat / 4096 ∧ p.toNat % 4096 = 0 := by
  rw [matches_F000, nibble1_eq]
  omega

theorem matches_F00F_iff_fields :
    (OpcodeRow.mk 0xF00F p).matches op = true ↔ nibble1 op = p.toNat / 4096 ∧ fieldN op = p.toNat % 4096 := by
  rw [matches_F00F, nibble1_eq, fieldN_eq]
  omega

theorem matches_F0FF_iff_fields :
    (OpcodeRow.mk 0xF0FF p).matches op = true ↔
      nibble1 op = p.toNat / 4096 ∧ (fieldKK op).toNat = p.toNat % 4096 := by
  rw [matches_F0FF, nibble1_eq, fieldKK_toNat]
  omega

/-! ### A decoded word matches the row of its instruction -/

theorem row_matches_of_decodeZ (h : decodeZ op = .ok i) : i.row.matches op = true := by
  unfold decodeZ at h
  split at h
  case isTrue hop => cases h; exact (matches_FFFF _ _).mpr hop
  case isFalse =>
    split at h
    case isTrue hop => cases h; exact (matches_FFFF _ _).mpr hop
    case isFalse => cases h

theorem row_matches_of_decodeAlu (ho : nibble1 op = 8) (h : decodeAlu op = .ok i) : i.row.matches op = true := by
  unfold decodeAlu at h
  split at h <;> cases h
  all_goals exact matches_F00F_iff_fields.mpr ⟨ho, ‹_›⟩

theorem row_matches_of_decodeKey (ho : nibble1 op = 14) (h : decodeKey op = .ok i) : i.row.matches op = true := by
  unfold decodeKey at h
  split at h <;> cases h
  all_goals exact matches_F0FF_iff_fields.mpr ⟨ho, ‹_›⟩

theorem row_matches_of_decodeMisc (ho : nibble1 op = 15) (h : decodeMisc op = .ok i) : i.row.matches op = true := by
  unfold decodeMisc at h
  split at h <;> cases h
  all_goals exact matches_F0FF_iff_fields.mpr ⟨ho, ‹_›⟩

/-- The decoder gives only instructions whose row matches. -/
theorem row_matches_of_decodeWord (h : decodeWord op = .ok i) : i.row.matches op = true := by
  unfold decodeWord at h
  split at h
  case h_1 => exact row_matches_of_decodeZ h
  case h_9 ho => exact row_matches_of_decodeAlu ho h
  case h_15 ho => exact row_matches_of_decodeKey ho h
  case h_16 ho => exact row_matches_of_decodeMisc ho h
  -- 5xy0 and 9xy0, the two other families that `n` selects in.
  case h_6 ho | h_10 ho =>
    split at h <;> cases h
    exact matches_F00F_iff_fields.mpr ⟨ho, ‹_›⟩
  case h_17 => cases h
  -- The families of one instruction, selected by the major opcode alone.
  all_goals
    cases h
    exact matches_F000_iff_fields.mpr ⟨‹_›, rfl⟩

/-! ### A word that matches a row decodes -/

theorem row_mem_opcodeRows (i : Instr) : i.row ∈ opcodeRows := by
  cases i <;> simp [Instr.row, opcodeRows]

/-- The table has no row without an instruction. -/
theorem exists_row_eq : ∀ r ∈ opcodeRows, ∃ i : Instr, i.row = r := by
  simp only [opcodeRows, List.cons_append, List.nil_append, List.forall_mem_cons]
  exact ⟨⟨.op00E0, rfl⟩, ⟨.op00EE, rfl⟩, ⟨.op1nnn 0, rfl⟩, ⟨.op2nnn 0, rfl⟩, ⟨.op3xkk 0 0, rfl⟩, ⟨.op4xkk 0 0, rfl⟩,
    ⟨.op5xy0 0 0, rfl⟩, ⟨.op6xkk 0 0, rfl⟩, ⟨.op7xkk 0 0, rfl⟩, ⟨.op8xy0 0 0, rfl⟩, ⟨.op8xy1 0 0, rfl⟩,
    ⟨.op8xy2 0 0, rfl⟩, ⟨.op8xy3 0 0, rfl⟩, ⟨.op8xy4 0 0, rfl⟩, ⟨.op8xy5 0 0, rfl⟩, ⟨.op8xy6 0 0, rfl⟩,
    ⟨.op8xy7 0 0, rfl⟩, ⟨.op8xyE 0 0, rfl⟩, ⟨.op9xy0 0 0, rfl⟩, ⟨.opAnnn 0, rfl⟩, ⟨.opBnnn 0, rfl⟩, ⟨.opCxkk 0 0, rfl⟩,
    ⟨.opDxyn 0 0 0, rfl⟩, ⟨.opEx9E 0, rfl⟩, ⟨.opExA1 0, rfl⟩, ⟨.opFx07 0, rfl⟩, ⟨.opFx0A 0, rfl⟩, ⟨.opFx15 0, rfl⟩,
    ⟨.opFx18 0, rfl⟩, ⟨.opFx1E 0, rfl⟩, ⟨.opFx29 0, rfl⟩, ⟨.opFx33 0, rfl⟩, ⟨.opFx55 0, rfl⟩, ⟨.opFx65 0, rfl⟩, nofun⟩

theorem exists_decodeWord_of_row_matches (h : i.row.matches op = true) : ∃ j, decodeWord op = .ok j := by
  cases i with
  | op00E0 | op00EE =>
    obtain rfl := (matches_FFFF _ _).mp h
    exact ⟨_, rfl⟩
  | op1nnn | op2nnn | op3xkk | op4xkk | op6xkk | op7xkk | opAnnn | opBnnn | opCxkk | opDxyn =>
    obtain ⟨ho, -⟩ := matches_F000_iff_fields.mp h
    simp [decodeWord, ho]
  | op5xy0 | op9xy0 | op8xy0 | op8xy1 | op8xy2 | op8xy3 | op8xy4 | op8xy5 | op8xy6 | op8xy7 | op8xyE =>
    obtain ⟨ho, hn⟩ := matches_F00F_iff_fields.mp h
    simp [decodeWord, decodeAlu, ho, hn]
  | opEx9E | opExA1 | opFx07 | opFx0A | opFx15 | opFx18 | opFx1E | opFx29 | opFx33 | opFx55 | opFx65 =>
    obtain ⟨ho, hk⟩ := matches_F0FF_iff_fields.mp h
    simp [decodeWord, decodeKey, decodeMisc, ho, hk]

/-- The decoder rejects only words that match no row, and all of them. -/
theorem exists_decodeWord_iff : (∃ i, decodeWord op = .ok i) ↔ ∃ r ∈ opcodeRows, r.matches op = true := by
  constructor
  · rintro ⟨i, h⟩
    exact ⟨i.row, row_mem_opcodeRows i, row_matches_of_decodeWord h⟩
  · rintro ⟨r, hr, hm⟩
    obtain ⟨i, rfl⟩ := exists_row_eq r hr
    exact exists_decodeWord_of_row_matches hm

/-! ### No word matches two rows -/

/-- Two rows that a word matches agree on the bits that both fix. -/
theorem OpcodeRow.pattern_and_mask_of_matches (h : r.matches op = true) (h' : r'.matches op = true) :
    r.pattern &&& r'.mask = r'.pattern &&& r.mask := by
  rw [← beq_iff_eq.mp h, ← beq_iff_eq.mp h', BitVec.and_assoc, BitVec.and_assoc, BitVec.and_comm r.mask]

theorem opcodeRows_separated :
    ∀ r ∈ opcodeRows, ∀ r' ∈ opcodeRows, r.pattern &&& r'.mask = r'.pattern &&& r.mask → r = r' := by
  decide

theorem opcodeRow_unique (hr : r ∈ opcodeRows) (hr' : r' ∈ opcodeRows) (h : r.matches op = true)
    (h' : r'.matches op = true) : r = r' :=
  opcodeRows_separated r hr r' hr' (OpcodeRow.pattern_and_mask_of_matches h h')

end Sys2Proof

/-! The fetch and the tick (30_encoding.md R70, R71), as the host sees an error of them. -/

namespace Sys2Proof.Machine

/-- A command that ends in an error leaves the state as it was (60_exceptions.md R203). -/
theorem transact_of_serve_fault {c : HostCommand} {s : State} {e : Fault} (h : serve c s = .fault e) :
    transact c s = (.fault e, s) := by
  rw [transact, h]

theorem transact_tick_of_not_decoded {s : State} {op : Word} (hf : fetch s = .next op)
    (hd : ¬ ∃ i, decodeWord op = .ok i) : transact .tick s = (.fault (.invalidOpcode op s.pc), s) :=
  transact_of_serve_fault (tick_eq_fault.mpr (.inr (.inl ⟨op, hf, hd, rfl⟩)))

theorem transact_tick_of_pc_outside {s : State} (h : 4094 < s.pc.toNat) :
    transact .tick s = (.fault (.memoryOutOfBounds (max s.pc.toNat 4096)), s) :=
  transact_of_serve_fault (tick_eq_fault.mpr (.inl (fetch_eq_fault.mpr ⟨h, rfl⟩)))

/-- Settles O4: a word decodes exactly where a row matches it (`exists_decodeWord_iff`), the row of the decoded instruction
matches (`row_matches_of_decodeWord`), and no other row does (`opcodeRow_unique`). -/
theorem decoderFollowsOpcodeTable : Obligations.DecoderFollowsOpcodeTable := by
  refine ⟨fun op i h => ?_, fun op => exists_decodeWord_iff.mpr, fun s op hf hnone => ?_⟩
  · have hrow := row_matches_of_decodeWord h
    exact ⟨row_mem_opcodeRows i, hrow, fun r hr hm => opcodeRow_unique hr (row_mem_opcodeRows i) hm hrow⟩
  · refine transact_tick_of_not_decoded hf fun hd => ?_
    obtain ⟨r, hr, hm⟩ := exists_decodeWord_iff.mp hd
    exact Bool.false_ne_true ((hnone r hr).symm.trans hm)

/-- The bytes a valid fetch joins, as a number. -/
theorem fetch_next_toNat {s : State} (h : s.pc.toNat ≤ 4094) :
    ∃ op, fetch s = .next op ∧
      op.toNat = 256 * (s.byteAt s.pc.toNat).toNat + (s.byteAt (s.pc.toNat + 1)).toNat :=
  ⟨_, fetch_eq_next.mpr ⟨h, rfl⟩, by rw [joinBytes_toNat, Nat.mul_comm]⟩

/-- Settles O6: the fetch of a PC up to 4094 joins the two bytes there (`fetch_next_toNat`), the tick then runs the decoded
instruction (`tick_eq_next`), and any other PC is an error of the tick (`transact_tick_of_pc_outside`). -/
theorem fetchJoinsTwoBytesOrFaults : Obligations.FetchJoinsTwoBytesOrFaults := by
  refine fun s => ⟨fun hpc => ?_, fun hpc => ?_, fun hpc => ?_⟩
  · obtain ⟨op, hf, hop⟩ := fetch_next_toNat hpc
    refine ⟨op, hf, hop, fun i t hd hx => ⟨tickReply i s, tick_eq_next.mpr ⟨i, ⟨op, hf, hd⟩, ?_, rfl⟩⟩⟩
    have hpost : BitVec.ofNat 16 (s.pc.toNat + 2) = s.pc + 2 := by simp [BitVec.ofNat_add]
    rwa [hpost] at hx
  · rw [transact_tick_of_pc_outside (by omega), hpc]
    rfl
  · rw [transact_tick_of_pc_outside (by omega), max_eq_left hpc]

end Sys2Proof.Machine

/-! The decoder on encoded instructions (30_encoding.md R73, R76): the fields of each format select the instruction they were
made from, so the number of an opcode decodes to its instruction. -/

namespace Sys2Proof

theorem decodeWord_encode {i : Instr} (h : i.wellFormed = true) : decodeWord (encode i) = .ok i := by
  cases i with
  | op00E0 | op00EE => rfl
  | op1nnn nnn | op2nnn nnn | opAnnn nnn | opBnnn nnn =>
    have hn : nnn.toNat < 4096 := of_decide_eq_true h
    simp [encode, decodeWord, nibble1_formatA, fieldNNN_formatA, hn]
  | op3xkk x kk | op4xkk x kk | op6xkk x kk | op7xkk x kk | opCxkk x kk =>
    simp [encode, decodeWord, nibble1_formatXK, fieldX_formatXK, fieldKK_formatXK]
  | op5xy0 x y | op9xy0 x y =>
    simp [encode, decodeWord, nibble1_formatXYN, fieldX_formatXYN, fieldY_formatXYN, fieldN_formatXYN]
  | op8xy0 x y | op8xy1 x y | op8xy2 x y | op8xy3 x y | op8xy4 x y | op8xy5 x y | op8xy6 x y | op8xy7 x y | op8xyE x y =>
    simp [encode, decodeWord, decodeAlu, nibble1_formatXYN, fieldX_formatXYN, fieldY_formatXYN, fieldN_formatXYN]
  | opDxyn x y n =>
    have hn : n < 16 := of_decide_eq_true h
    simp [encode, decodeWord, nibble1_formatXYN, fieldX_formatXYN, fieldY_formatXYN, fieldN_formatXYN, hn]
  | opEx9E x | opExA1 x =>
    simp [encode, decodeWord, decodeKey, nibble1_formatXK, fieldX_formatXK, fieldKK_formatXK]
  | opFx07 x | opFx0A x | opFx15 x | opFx18 x | opFx1E x | opFx29 x | opFx33 x | opFx55 x | opFx65 x =>
    simp [encode, decodeWord, decodeMisc, nibble1_formatXK, fieldX_formatXK, fieldKK_formatXK]

end Sys2Proof

namespace Sys2Proof.Machine

theorem isOpcodeOf_of_encode_toNat {w : Nat} {i : Instr} (hi : i.wellFormed = true) (hw : (encode i).toNat = w) :
    IsOpcodeOf w i := by
  rw [IsOpcodeOf, ← hw, BitVec.ofNat_toNat, BitVec.setWidth_eq]
  exact decodeWord_encode hi

/-- An address of 12 bits, as the 16-bit operand it is zero-extended to (30_encoding.md R74). -/
theorem toNat_ofNat_of_lt_4096 {nnn : Nat} (h : nnn < 4096) : (BitVec.ofNat 16 nnn).toNat = nnn :=
  (BitVec.toNat_ofNat nnn 16).trans (Nat.mod_eq_of_lt (by omega))

/-- An instruction of format A has the opcode of its major opcode followed by `nnn` (30_encoding.md R73). -/
theorem isOpcodeOf_formatA {o nnn : Nat} {i : Instr} (ho : o < 16) (hn : nnn < 4096)
    (hi : (BitVec.ofNat 16 nnn).toNat < 4096 → i.wellFormed = true) (he : encode i = formatA o (BitVec.ofNat 16 nnn)) :
    IsOpcodeOf (4096 * o + nnn) i := by
  have hnnn := toNat_ofNat_of_lt_4096 hn
  have hlt : (BitVec.ofNat 16 nnn).toNat < 4096 := hnnn.symm ▸ hn
  exact isOpcodeOf_of_encode_toNat (hi hlt) (by rw [he, formatA_toNat ho hlt, hnnn])

end Sys2Proof.Machine

/-! Control transfer and skips (40_control.md). What each of these instructions does is said once, as the next state or the
error; the frames of the two updates they make, PC and the stack, are said once too. -/

namespace Sys2Proof.Machine

variable {s t : State}

/-! ### A tick that runs an instruction, as the host sees it (30_encoding.md R70) -/

theorem transact_tick_of_exec_next {i : Instr} (hi : s.runsNext i) (hx : exec i (s.setPc (s.pc + 2)) = .next t) :
    transact .tick s = (.next (tickReply i s), t) := by
  have hs : serve .tick s = .next (tickReply i s, t) := tick_eq_next.mpr ⟨i, hi, hx, rfl⟩
  rw [transact, hs]

theorem transact_tick_of_exec_fault {i : Instr} {e : Fault} (hi : s.runsNext i)
    (hx : exec i (s.setPc (s.pc + 2)) = .fault e) : transact .tick s = (.fault e, s) :=
  transact_of_serve_fault (tick_eq_fault.mpr (.inr (.inr ⟨i, hi, hx⟩)))

/-! ### Frames -/

theorem setPc_changesOnly (s : State) (p : Word) : ChangesOnly (fun q => q = .pc) s (s.setPc p) := by
  intro q hq
  cases q with
  | pc => exact absurd rfl hq
  | rng => exact ⟨rfl, rfl⟩
  | reg | index | stack | delay | sound | byte | pixel | key | font | schedule => rfl

theorem setStack_setPc_changesOnly (s : State) (l : List Word) (p : Word) :
    ChangesOnly (fun q => q = .pc ∨ q = .stack) s ((s.setStack l).setPc p) := by
  intro q hq
  obtain ⟨hpc, hstack⟩ := not_or.mp hq
  cases q with
  | stack => exact absurd rfl hstack
  | _ => exact setPc_changesOnly (s.setStack l) p _ hpc

/-! ### The skip (R100) -/

/-- A skip on a condition that `P` makes true and `Q` makes false. -/
theorem skipIf_completes {c : Bool} {P Q : Prop} (hP : P → c = true) (hQ : Q → c = false) :
    ∃ t, skipIf c s = .next t ∧ (P → t.pc = s.pc + 2) ∧ (Q → t.pc = s.pc) ∧ ChangesOnly (fun p => p = .pc) s t := by
  cases c with
  | true => exact ⟨s.setPc (s.pc + 2), rfl, fun _ => rfl, fun h => absurd (hQ h) nofun, setPc_changesOnly s _⟩
  | false => exact ⟨s, rfl, fun h => absurd (hP h) nofun, fun _ => rfl, setPc_changesOnly s s.pc⟩

/-! ### Call and return -/

theorem exec00EE_of_stack {front : List Word} {v : Word} (h : s.stack = front ++ [v]) :
    exec00EE s = .next ((s.setStack front).setPc v) := by
  rw [exec00EE, pop_eq_next.mpr ⟨front, v, h, rfl⟩, andThen_next]

theorem exec00EE_of_empty (h : s.stack = []) : exec00EE s = .fault .stackUnderflow := by
  rw [exec00EE, pop_empty h, andThen_raise, raise]

theorem exec2nnn_of_lt (nnn : Word) (h : s.stack.length < 16) :
    exec2nnn nnn s = .next ((s.setStack (s.stack ++ [s.pc])).setPc nnn) := by
  rw [exec2nnn, push_eq_next.mpr ⟨h, rfl⟩, andThen_next]

theorem exec2nnn_of_full (nnn : Word) (h : ¬ s.stack.length < 16) : exec2nnn nnn s = .fault .stackOverflow := by
  rw [exec2nnn, push_full h, andThen_raise, raise]

/-- Settles O12: 00EE on a stack with a top (`exec00EE_of_stack`) and on the empty one (`exec00EE_of_empty`). -/
theorem returnPopsPc : Obligations.ReturnPopsPc := by
  refine ⟨isOpcodeOf_of_encode_toNat rfl rfl, fun s front v hs => ?_, fun s hi hs => ?_⟩
  · exact ⟨_, exec00EE_of_stack hs, rfl, rfl, setStack_setPc_changesOnly s front v⟩
  · exact transact_tick_of_exec_fault hi (exec00EE_of_empty hs)

/-- Settles O13. A jump to its own address puts back the PC that the fetch moved on, so the state after it is the one before. -/
theorem jumpSetsPc : Obligations.JumpSetsPc := by
  refine ⟨fun nnn s hn => ?_, fun s hi => ?_⟩
  · refine ⟨isOpcodeOf_formatA (o := 0x1) (by decide) hn decide_eq_true rfl, ?_⟩
    exact ⟨s.setPc (BitVec.ofNat 16 nnn), rfl, toNat_ofNat_of_lt_4096 hn, setPc_changesOnly s _⟩
  · exact transact_tick_of_exec_next hi rfl

/-- Settles O14: 2nnn with room on the stack (`exec2nnn_of_lt`) and on the full one (`exec2nnn_of_full`). -/
theorem callPushesReturnAddress : Obligations.CallPushesReturnAddress := by
  refine fun nnn s hn => ⟨?_, fun hlt => ?_, fun hi hfull => ?_⟩
  · exact isOpcodeOf_formatA (o := 0x2) (by decide) hn decide_eq_true rfl
  · exact ⟨_, exec2nnn_of_lt _ hlt, rfl, toNat_ofNat_of_lt_4096 hn, setStack_setPc_changesOnly s _ _⟩
  · have hroom : ¬ (s.setPc (s.pc + 2)).stack.length < 16 := by rw [State.setPc_stack]; omega
    exact transact_tick_of_exec_fault hi (exec2nnn_of_full _ hroom)

/-- Settles O16: both are a skip (`skipIf_completes`) on the comparison. -/
theorem byteSkipsCompareVxWithKk : Obligations.ByteSkipsCompareVxWithKk := by
  refine fun x kk s => ⟨isOpcodeOf_of_encode_toNat rfl (formatXK_toNat x kk (by decide)),
    isOpcodeOf_of_encode_toNat rfl (formatXK_toNat x kk (by decide)), ?_, ?_⟩
  · exact skipIf_completes beq_iff_eq.mpr beq_eq_false_iff_ne.mpr
  · exact skipIf_completes bne_iff_ne.mpr bne_eq_false_iff_eq.mpr

/-- Settles O17: both are a skip (`skipIf_completes`) on the comparison. -/
theorem registerSkipsCompareVxWithVy : Obligations.RegisterSkipsCompareVxWithVy := by
  refine fun x y s => ⟨isOpcodeOf_of_encode_toNat rfl (formatXYN_toNat x y (by decide) (by decide)),
    isOpcodeOf_of_encode_toNat rfl (formatXYN_toNat x y (by decide) (by decide)), ?_, ?_⟩
  · exact skipIf_completes beq_iff_eq.mpr beq_eq_false_iff_ne.mpr
  · exact skipIf_completes bne_iff_ne.mpr bne_eq_false_iff_eq.mpr

end Sys2Proof.Machine

/-! Register loads, ALU and flags (41_alu.md). What the operations of R120 give is said in numbers, once each; the frames of the two
updates these instructions make, a result alone and a result with a flag, are said once too. -/

namespace Sys2Proof.Machine

variable {s t u : State}

/-! ### Opcodes (30_encoding.md R73) -/

/-- An instruction of format XK has the opcode of its major opcode, its register and its byte. -/
theorem isOpcodeOf_formatXK {o : Nat} {i : Instr} (x : RegIdx) (kk : Byte) (ho : o < 16) (hi : i.wellFormed = true)
    (he : encode i = formatXK o x kk) : IsOpcodeOf (0x1000 * o + 0x100 * x.val + kk.toNat) i :=
  isOpcodeOf_of_encode_toNat hi (by rw [he, formatXK_toNat x kk ho])

/-- An instruction of format XY has the opcode of its major and minor opcode and its two registers. -/
theorem isOpcodeOf_formatXYN {o n : Nat} {i : Instr} (x y : RegIdx) (ho : o < 16) (hn : n < 16) (hi : i.wellFormed = true)
    (he : encode i = formatXYN o x y n) : IsOpcodeOf (0x1000 * o + n + 0x100 * x.val + 0x10 * y.val) i :=
  isOpcodeOf_of_encode_toNat hi (by rw [he, formatXYN_toNat x y ho hn]; omega)

/-! ### The arithmetic laws in numbers (R120) -/

theorem addWrap_toNat (a b : Byte) : (addWrap a b).toNat = (a.toNat + b.toNat) % 256 :=
  BitVec.toNat_ofNat _ 8

theorem subWrap_toNat (a b : Byte) : ((subWrap a b).toNat : Int) = ((a.toNat : Int) - b.toNat) % 256 := by
  have hb := b.isLt
  rw [subWrap, BitVec.toNat_ofNat]
  omega

theorem shiftRight1_toNat (a : Byte) : (shiftRight1 a).toNat = a.toNat / 2 := by
  have ha := a.isLt
  rw [shiftRight1, BitVec.toNat_ofNat]
  omega

theorem shiftLeft1_toNat (a : Byte) : (shiftLeft1 a).toNat = a.toNat * 2 % 256 :=
  BitVec.toNat_ofNat _ 8

/-! ### The flags in numbers (10_state.md R37) -/

theorem flagByte_toNat (b : Bool) : (flagByte b).toNat = b.toNat := by
  cases b <;> rfl

theorem flagByte_decide_toNat (p : Prop) [Decidable p] : (flagByte (decide p)).toNat = if p then 1 else 0 :=
  (flagByte_toNat _).trans (Bool.cond_decide p 1 0)

theorem flagByte_carry_toNat (a b : Byte) :
    (flagByte (carry a b)).toNat = if a.toNat + b.toNat > 255 then 1 else 0 :=
  flagByte_decide_toNat _

theorem flagByte_noBorrow_toNat (a b : Byte) :
    (flagByte (noBorrow a b)).toNat = if a.toNat ≥ b.toNat then 1 else 0 :=
  flagByte_decide_toNat _

theorem flagByte_getLsbD_toNat (a : Byte) (i : Nat) : (flagByte (a.getLsbD i)).toNat = a.toNat / 2 ^ i % 2 :=
  (flagByte_toNat _).trans (Nat.toNat_testBit a.toNat i)

theorem flagByte_lowBit_toNat (a : Byte) : (flagByte (lowBit a)).toNat = a.toNat % 2 := by
  rw [lowBit, flagByte_getLsbD_toNat, Nat.pow_zero, Nat.div_one]

theorem flagByte_highBit_toNat (a : Byte) : (flagByte (highBit a)).toNat = a.toNat / 128 := by
  have ha := a.isLt
  rw [highBit, flagByte_getLsbD_toNat]
  omega

/-! ### Results and flags in registers -/

theorem State.setReg_reg_self (s : State) (x : RegIdx) (b : Byte) : (s.setReg x b).reg x = b := by
  rw [State.setReg_reg, if_pos rfl]

theorem State.setResultFlag_reg_result {x : RegIdx} (hx : x ≠ 15) (s : State) (b : Byte) (flag : Bool) :
    (s.setResultFlag x b flag).reg x = b := by
  rw [State.setResultFlag_reg, if_neg hx, if_pos rfl]

theorem State.setResultFlag_reg_flag (s : State) (x : RegIdx) (b : Byte) (flag : Bool) :
    (s.setResultFlag x b flag).reg 15 = flagByte flag := by
  rw [State.setResultFlag_reg, if_pos rfl]

/-! ### Frames -/

theorem State.sameAt_trans {p : Part} (hst : s.sameAt t p) (htu : t.sameAt u p) : s.sameAt u p := by
  cases p with
  | rng => exact ⟨htu.1.trans hst.1, htu.2.trans hst.2⟩
  | _ => exact Eq.trans htu hst

theorem changesOnly_trans {P Q : Part → Prop} (hst : ChangesOnly P s t) (htu : ChangesOnly Q t u) :
    ChangesOnly (fun p => P p ∨ Q p) s u := fun p hp =>
  State.sameAt_trans (hst p fun hP => hp (.inl hP)) (htu p fun hQ => hp (.inr hQ))

theorem setReg_changesOnly (s : State) (x : RegIdx) (b : Byte) : ChangesOnly (fun p => p = .reg x) s (s.setReg x b) := by
  intro p hp
  cases p with
  | reg k =>
    have hk : k ≠ x := fun h => hp (congrArg Part.reg h)
    exact (State.setReg_reg s x b k).trans (if_neg hk)
  | rng => exact ⟨rfl, rfl⟩
  | pc | index | stack | delay | sound | byte | pixel | key | font | schedule => rfl

theorem setResultFlag_changesOnly (s : State) (x : RegIdx) (b : Byte) (flag : Bool) :
    ChangesOnly (fun p => p = .reg x ∨ p = .reg 15) s (s.setResultFlag x b flag) :=
  changesOnly_trans (setReg_changesOnly s x b) (setReg_changesOnly (s.setReg x b) 15 (flagByte flag))

/-! ### The instructions -/

/-- Settles O19: both write one register (`setReg_changesOnly`). -/
theorem loadsSetVx : Obligations.LoadsSetVx := by
  refine ⟨fun x kk s => ⟨?_, ?_⟩, fun x y s => ⟨?_, ?_⟩⟩
  · exact isOpcodeOf_formatXK (o := 0x6) x kk (by decide) rfl rfl
  · exact ⟨s.setReg x kk, rfl, State.setReg_reg_self s x kk, setReg_changesOnly s x kk⟩
  · exact isOpcodeOf_formatXYN (o := 0x8) (n := 0) x y (by decide) (by decide) rfl rfl
  · exact ⟨s.setReg x (s.reg y), rfl, State.setReg_reg_self s x _, setReg_changesOnly s x _⟩

/-- Settles O20: the wrapped sum (`addWrap_toNat`) is the one register written. -/
theorem addByteWrapsWithoutFlag : Obligations.AddByteWrapsWithoutFlag := by
  refine fun x kk s => ⟨isOpcodeOf_formatXK (o := 0x7) x kk (by decide) rfl rfl, ?_⟩
  refine ⟨s.setReg x (addWrap (s.reg x) kk), rfl, ?_, setReg_changesOnly s x _⟩
  rw [State.setReg_reg_self, addWrap_toNat]

/-- Settles O21: the one register written holds the OR, AND or XOR, whose bits the library gives. -/
theorem logicOperationsActBitwise : Obligations.LogicOperationsActBitwise := by
  refine fun x y s => ⟨isOpcodeOf_formatXYN (o := 0x8) (n := 1) x y (by decide) (by decide) rfl rfl,
    isOpcodeOf_formatXYN (o := 0x8) (n := 2) x y (by decide) (by decide) rfl rfl,
    isOpcodeOf_formatXYN (o := 0x8) (n := 3) x y (by decide) (by decide) rfl rfl, ?or, ?and, ?xor⟩
  case or =>
    refine ⟨s.setReg x (s.reg x ||| s.reg y), rfl, fun b _ => ?_, setReg_changesOnly s x _⟩
    rw [State.setReg_reg_self, BitVec.getLsbD_or]
  case and =>
    refine ⟨s.setReg x (s.reg x &&& s.reg y), rfl, fun b _ => ?_, setReg_changesOnly s x _⟩
    rw [State.setReg_reg_self, BitVec.getLsbD_and]
  case xor =>
    refine ⟨s.setReg x (s.reg x ^^^ s.reg y), rfl, fun b _ => ?_, setReg_changesOnly s x _⟩
    rw [State.setReg_reg_self, BitVec.getLsbD_xor]

/-- Settles O22: the sum (`addWrap_toNat`) and its carry (`flagByte_carry_toNat`). -/
theorem addRegistersSetsCarry : Obligations.AddRegistersSetsCarry := by
  refine fun x y s => ⟨isOpcodeOf_formatXYN (o := 0x8) (n := 4) x y (by decide) (by decide) rfl rfl, ?_⟩
  refine ⟨_, rfl, fun hx => ?result, ?flag, setResultFlag_changesOnly s x _ _⟩
  case result => rw [State.setResultFlag_reg_result hx, addWrap_toNat]
  case flag => rw [State.setResultFlag_reg_flag, flagByte_carry_toNat]

/-- A difference in Vx and its no-borrow flag in VF (R128, R130). -/
theorem setResultFlag_difference (s : State) (x : RegIdx) (a b : Byte) :
    ∃ t, (.next (s.setResultFlag x (subWrap a b) (noBorrow a b)) : Host.Outcome State Fault Refusal) = .next t ∧
      (x ≠ 15 → ((t.reg x).toNat : Int) = ((a.toNat : Int) - b.toNat) % 256) ∧
      (t.reg 15).toNat = (if a.toNat ≥ b.toNat then 1 else 0) ∧
      ChangesOnly (fun p => p = .reg x ∨ p = .reg 15) s t := by
  refine ⟨_, rfl, fun hx => ?result, ?flag, setResultFlag_changesOnly s x _ _⟩
  case result => rw [State.setResultFlag_reg_result hx, subWrap_toNat]
  case flag => rw [State.setResultFlag_reg_flag, flagByte_noBorrow_toNat]

/-- Settles O23: both are a difference with its flag (`setResultFlag_difference`), the operands exchanged. -/
theorem subtractionsSetNoBorrow : Obligations.SubtractionsSetNoBorrow := by
  refine fun x y s => ⟨isOpcodeOf_formatXYN (o := 0x8) (n := 5) x y (by decide) (by decide) rfl rfl,
    isOpcodeOf_formatXYN (o := 0x8) (n := 7) x y (by decide) (by decide) rfl rfl, ?_, ?_⟩
  · exact setResultFlag_difference s x (s.reg x) (s.reg y)
  · exact setResultFlag_difference s x (s.reg y) (s.reg x)

/-- Settles O24: each shift in numbers, and the bit it puts out (`flagByte_lowBit_toNat`, `flagByte_highBit_toNat`). -/
theorem shiftsPutOutBitInVf : Obligations.ShiftsPutOutBitInVf := by
  refine fun x y s => ⟨isOpcodeOf_formatXYN (o := 0x8) (n := 6) x y (by decide) (by decide) rfl rfl,
    isOpcodeOf_formatXYN (o := 0x8) (n := 14) x y (by decide) (by decide) rfl rfl, ?right, ?left⟩
  case right =>
    refine ⟨_, rfl, fun hx => ?_, ?_, setResultFlag_changesOnly s x _ _⟩
    · rw [State.setResultFlag_reg_result hx, shiftRight1_toNat]
    · rw [State.setResultFlag_reg_flag, flagByte_lowBit_toNat]
  case left =>
    refine ⟨_, rfl, fun hx => ?_, ?_, setResultFlag_changesOnly s x _ _⟩
    · rw [State.setResultFlag_reg_result hx, shiftLeft1_toNat]
    · rw [State.setResultFlag_reg_flag, flagByte_highBit_toNat]

end Sys2Proof.Machine

/-! The index register and memory (42_index_memory.md). The frames of the three updates these instructions make, I, a span of
bytes and the registers up to Vx, are said once, and so is the error of an access that leaves memory (R153). -/

namespace Sys2Proof.Machine

variable {s : State}

/-- An instruction of major opcode F has the opcode of its byte and its register (30_encoding.md R73). -/
theorem isOpcodeOf_misc {i : Instr} (x : RegIdx) (kk : Byte) (hi : i.wellFormed = true) (he : encode i = formatXK 0xF x kk) :
    IsOpcodeOf (0xF000 + kk.toNat + 0x100 * x.val) i := by
  rw [Nat.add_right_comm]
  exact isOpcodeOf_formatXK (o := 0xF) x kk (by decide) hi he

/-! ### Bytes written, read back -/

theorem State.setBytes_byteAt_add (s : State) (a : Nat) {bs : List Byte} {k : Nat} (h : k < bs.length) :
    (s.setBytes a bs).byteAt (a + k) = bs[k] := by
  rw [State.setBytes_byteAt, if_pos (Nat.le_add_right a k), Nat.add_sub_cancel_left, List.getElem?_eq_getElem h,
    Option.getD_some]

theorem State.setBytes_byteAt_outside {a b : Nat} (bs : List Byte) (h : ∀ k < bs.length, b ≠ a + k) :
    (s.setBytes a bs).byteAt b = s.byteAt b := by
  rw [State.setBytes_byteAt]
  split
  next hab =>
    have hlen : bs.length ≤ b - a := Nat.le_of_not_lt fun hlt => h (b - a) hlt (by omega)
    rw [List.getElem?_eq_none hlen, Option.getD_none]
  next => rfl

/-- A number that fits a byte, such as a decimal digit (R154), is what the byte holds. -/
theorem toNat_ofNat_of_lt_256 {n : Nat} (h : n < 256) : (BitVec.ofNat 8 n).toNat = n :=
  (BitVec.toNat_ofNat n 8).trans (Nat.mod_eq_of_lt h)

/-! ### Frames -/

theorem setI_changesOnly (s : State) (a : Word) : ChangesOnly (fun p => p = .index) s (s.setI a) := by
  intro p hp
  cases p with
  | index => exact absurd rfl hp
  | rng => exact ⟨rfl, rfl⟩
  | reg | pc | stack | delay | sound | byte | pixel | key | font | schedule => rfl

theorem setBytes_changesOnly (s : State) (a : Nat) (bs : List Byte) :
    ChangesOnly (fun p => ∃ k < bs.length, p = .byte (a + k)) s (s.setBytes a bs) := by
  intro p hp
  cases p with
  | byte b => exact State.setBytes_byteAt_outside bs fun k hk hb => hp ⟨k, hk, congrArg Part.byte hb⟩
  | reg | pc | index | stack | delay | sound | pixel | key | font | schedule | rng => simp [State.sameAt]

theorem setRegs_changesOnly (s : State) (v : Registers) {P : RegIdx → Prop} (hv : ∀ k, ¬ P k → v[k] = s.reg k) :
    ChangesOnly (fun p => ∃ k, P k ∧ p = .reg k) s (s.setRegs v) := by
  intro p hp
  cases p with
  | reg k => exact hv k fun hk => hp ⟨k, hk, rfl⟩
  | rng => exact ⟨rfl, rfl⟩
  | pc | index | stack | delay | sound | byte | pixel | key | font | schedule => rfl

/-! ### Leaving memory (R153) -/

/-- A tick whose instruction first checks a span that leaves memory ends in the error and changes nothing. -/
theorem transact_tick_of_checkSpan_outside {i : Instr} {a len : Nat} {o : Host.Outcome State Fault Refusal}
    (hi : s.runsNext i) (hx : exec i (s.setPc (s.pc + 2)) = checkSpan a len o) (hlen : 0 < len) (h : 4096 < a + len) :
    transact .tick s = (.fault (.memoryOutOfBounds (max a 4096)), s) :=
  transact_tick_of_exec_fault hi (hx.trans (checkSpan_neg (by simp only [spanInMemory]; omega)))

/-! ### The instructions -/

/-- Settles O26: both write I alone (`setI_changesOnly`); the sum of Fx1E is narrowed to 16 bits. -/
theorem indexRegisterWrites : Obligations.IndexRegisterWrites := by
  refine ⟨fun nnn s hn => ⟨?_, ?_⟩, fun x s => ⟨?_, ?_⟩⟩
  · exact isOpcodeOf_formatA (o := 0xA) (by decide) hn decide_eq_true rfl
  · exact ⟨s.setI (BitVec.ofNat 16 nnn), rfl, toNat_ofNat_of_lt_4096 hn, setI_changesOnly s _⟩
  · exact isOpcodeOf_misc x 0x1E rfl rfl
  · exact ⟨s.setI _, rfl, BitVec.toNat_ofNat _ 16, setI_changesOnly s _⟩

/-- Settles O28: inside memory the digits are the bytes of the span written (`State.setBytes_byteAt_add`), each below 256, and
nothing else changes (`setBytes_changesOnly`); outside, the check of the span is the tick's error. -/
theorem decimalDigitsAreStored : Obligations.DecimalDigitsAreStored := by
  refine fun x s => ⟨isOpcodeOf_misc x 0x33 rfl rfl, fun hin => ?inside, fun hi hout => ?outside⟩
  case inside =>
    have hv := (s.reg x).isLt
    have hdigit (k : Nat) (hk : k < 3) := State.setBytes_byteAt_add s s.i.toNat (bs := decimalDigits (s.reg x)) hk
    refine ⟨s.setBytes s.i.toNat (decimalDigits (s.reg x)), checkSpan_pos (.inr hin), ?hundreds, ?tens, ?ones,
      setBytes_changesOnly s s.i.toNat (decimalDigits (s.reg x))⟩
    case hundreds => exact (congrArg BitVec.toNat (hdigit 0 (by decide))).trans (toNat_ofNat_of_lt_256 (by omega))
    case tens => exact (congrArg BitVec.toNat (hdigit 1 (by decide))).trans (toNat_ofNat_of_lt_256 (by omega))
    case ones => exact (congrArg BitVec.toNat (hdigit 2 (by decide))).trans (toNat_ofNat_of_lt_256 (by omega))
  case outside => exact transact_tick_of_checkSpan_outside hi rfl (by decide) (Nat.lt_succ_of_le hout)

/-- Settles O30: inside memory the registers up to Vx are the bytes of the span and nothing else changes
(`setRegs_changesOnly`); outside, the check of the span is the tick's error. -/
theorem registersAreLoadedFromI : Obligations.RegistersAreLoadedFromI := by
  refine fun x s => ⟨isOpcodeOf_misc x 0x65 rfl rfl, fun hin => ?inside, fun hi hout => ?outside⟩
  case inside =>
    refine ⟨s.setRegs (s.regsFromMemory x), checkSpan_pos (.inr hin), fun k hk => ?_,
      setRegs_changesOnly s _ fun k hk => ?_⟩
    · rw [State.setRegs_reg, State.regsFromMemory_getElem, if_pos hk]
    · rw [State.regsFromMemory_getElem, if_neg hk]
  case outside => exact transact_tick_of_checkSpan_outside hi rfl x.val.succ_pos (Nat.lt_succ_of_le hout)

end Sys2Proof.Machine

/-! The framebuffer (43_display.md). The pixels that `spritePoints` lists for the bytes at I are those that `SpriteCovers` names;
with that, `drawRows_pixel` and `drawRows_collision` say what Dxyn does in the words of R172. -/

namespace Sys2Proof.Machine

variable {s t : State} {x y : RegIdx} {n : Nat}

/-! ### Frames -/

theorem changesOnly_mono {P Q : Part → Prop} (hPQ : ∀ p, P p → Q p) (h : ChangesOnly P s t) : ChangesOnly Q s t :=
  fun p hp => h p fun hP => hp (hPQ p hP)

theorem setFb_changesOnly (s : State) (f : Framebuffer) {P : Fin 64 → Fin 32 → Prop}
    (hf : ∀ c r, ¬ P c r → f.pixel c r = s.fb.pixel c r) :
    ChangesOnly (fun p => ∃ c r, p = .pixel c r ∧ P c r) s (s.setFb f) := by
  intro p hp
  cases p with
  | pixel c r => exact hf c r fun hc => hp ⟨c, r, rfl, hc⟩
  | rng => exact ⟨rfl, rfl⟩
  | reg | pc | index | stack | delay | sound | byte | key | font | schedule => rfl

/-! ### The pixels of the sprite at I (R171, R172) -/

theorem State.bytesAt_getElem?_eq_some_iff {a len j : Nat} {b : Byte} :
    (s.bytesAt a len)[j]? = some b ↔ j < len ∧ s.byteAt (a + j) = b := by
  simp only [List.getElem?_eq_some_iff, State.bytesAt_getElem, State.bytesAt_length, exists_prop]

theorem mem_spritePoints_bytesAt_iff {c : Fin 64} {r : Fin 32} :
    (c, r) ∈ spritePoints (s.bytesAt s.i.toNat n) (s.reg x).toNat (s.reg y).toNat ↔ SpriteCovers s x y n c r := by
  simp only [mem_spritePoints, State.bytesAt_getElem?_eq_some_iff, spritePixels_getElem]
  constructor
  · rintro ⟨row, b, col, ⟨hrow, rfl⟩, ⟨hcol, hbit⟩, hc, hr⟩
    exact ⟨row, hrow, col, hcol, hbit, hc, hr⟩
  · rintro ⟨row, hrow, col, hcol, hbit, hc, hr⟩
    exact ⟨row, _, col, ⟨hrow, rfl⟩, ⟨hcol, hbit⟩, hc, hr⟩

/-! ### Drawing the sprite -/

/-- The framebuffer after Dxyn, and its collision flag. -/
def State.drawSprite (s : State) (x y : RegIdx) (n : Nat) : Drawing :=
  drawRows (s.bytesAt s.i.toNat n) (s.reg x).toNat (s.reg y).toNat (s.fb, false)

theorem execDxyn_eq_checkSpan (x y : RegIdx) (n : Nat) (s : State) :
    execDxyn x y n s =
      checkSpan s.i.toNat n (.next ((s.setFb (s.drawSprite x y n).1).setFlag (s.drawSprite x y n).2)) := rfl

theorem State.drawSprite_pixel_of_covers (hn : n < 16) {c : Fin 64} {r : Fin 32} (h : SpriteCovers s x y n c r) :
    (s.drawSprite x y n).1.pixel c r = !s.fb.pixel c r := by
  rw [State.drawSprite, drawRows_pixel _ _ _ (by rw [State.bytesAt_length]; omega),
    decide_eq_true (mem_spritePoints_bytesAt_iff.mpr h), Bool.xor_true]

theorem State.drawSprite_pixel_of_not_covers (hn : n < 16) {c : Fin 64} {r : Fin 32} (h : ¬ SpriteCovers s x y n c r) :
    (s.drawSprite x y n).1.pixel c r = s.fb.pixel c r := by
  rw [State.drawSprite, drawRows_pixel _ _ _ (by rw [State.bytesAt_length]; omega),
    decide_eq_false (mt mem_spritePoints_bytesAt_iff.mp h), Bool.xor_false]

theorem State.drawSprite_collision (hn : n < 16) :
    (s.drawSprite x y n).2 = true ↔ ∃ c r, SpriteCovers s x y n c r ∧ s.fb.pixel c r = true := by
  rw [State.drawSprite, drawRows_collision _ _ _ (by rw [State.bytesAt_length]; omega)]
  simp only [Bool.false_eq_true, false_or, Prod.exists, mem_spritePoints_bytesAt_iff]

theorem State.drawSprite_no_collision (hn : n < 16) (h : ∀ c r, SpriteCovers s x y n c r → s.fb.pixel c r = false) :
    (s.drawSprite x y n).2 = false := by
  refine Bool.eq_false_iff.mpr fun hcollision => ?_
  obtain ⟨c, r, hcover, hset⟩ := (State.drawSprite_collision hn).mp hcollision
  exact Bool.false_ne_true ((h c r hcover).symm.trans hset)

theorem drawSprite_changesOnly (hn : n < 16) (flag : Bool) :
    ChangesOnly (fun p => p = .reg 15 ∨ ∃ c r, p = .pixel c r ∧ SpriteCovers s x y n c r) s
      ((s.setFb (s.drawSprite x y n).1).setFlag flag) := by
  have hfb := setFb_changesOnly s (s.drawSprite x y n).1 fun _ _ => State.drawSprite_pixel_of_not_covers hn
  exact changesOnly_mono (fun _ => Or.symm) (changesOnly_trans hfb (setReg_changesOnly _ 15 (flagByte flag)))

/-! ### The instructions and the command -/

/-- Settles O35: inside memory the covered pixels are toggled (`State.drawSprite_pixel_of_covers`), VF is the collision flag
(`State.drawSprite_collision`) and nothing else changes (`drawSprite_changesOnly`); outside, the check of the span is the tick's
error. -/
theorem drawTogglesSpritePixels : Obligations.DrawTogglesSpritePixels := by
  refine fun x y n s hn => ⟨?opcode, fun hin => ?inside, fun hi hpos hout => ?outside⟩
  case opcode => exact isOpcodeOf_of_encode_toNat (decide_eq_true hn) (formatXYN_toNat x y (by decide) hn)
  case inside =>
    refine ⟨_, (execDxyn_eq_checkSpan x y n s).trans (checkSpan_pos hin), fun c r hcover => ?toggled, fun hset => ?collision,
      fun hclear => ?noCollision, drawSprite_changesOnly hn _⟩
    case toggled => exact State.drawSprite_pixel_of_covers hn hcover
    case collision => rw [State.setFlag_reg, if_pos rfl, (State.drawSprite_collision hn).mpr hset, flagByte, if_pos rfl]
    case noCollision =>
      rw [State.setFlag_reg, if_pos rfl, State.drawSprite_no_collision hn hclear, flagByte, if_neg Bool.false_ne_true]
  case outside => exact transact_tick_of_checkSpan_outside hi (execDxyn_eq_checkSpan x y n _) hpos hout

/-- Settles O34: the cleared framebuffer is the one field written (`setFb_changesOnly`). -/
theorem clearTurnsEveryPixelOff : Obligations.ClearTurnsEveryPixelOff := by
  refine ⟨isOpcodeOf_of_encode_toNat rfl rfl, fun s => ⟨s.setFb Framebuffer.clear, rfl, Framebuffer.clear_pixel, ?_⟩⟩
  have hfb := setFb_changesOnly s Framebuffer.clear (P := fun _ _ => True) fun _ _ h => absurd trivial h
  exact changesOnly_mono (fun _ ⟨c, r, hp, _⟩ => ⟨c, r, hp⟩) hfb

/-- Settles O44: what `display` gives after 00E0 is the framebuffer that 00E0 leaves, which `clearTurnsEveryPixelOff` says is
clear. -/
theorem displayShowsFramebuffer : Obligations.DisplayShowsFramebuffer := by
  refine ⟨fun s => rfl, fun s t ht => ⟨t.fb, rfl, ?_⟩⟩
  obtain ⟨u, hu, hclear, -⟩ := clearTurnsEveryPixelOff.2 s
  obtain rfl : t = u := Host.Outcome.next.inj (ht.symm.trans hu)
  exact hclear

end Sys2Proof.Machine

/-! Keypad and timers (44_keypad_timers.md). Fx0A has two outcomes, by whether a key is pressed, and the reply of its tick follows
the same split; the frames of the two timers are said once. -/

namespace Sys2Proof.Machine

variable {s : State} {x : RegIdx}

/-! ### Waiting for a key (R187) -/

theorem execFx0A_of_lowest {k : Fin 16} (hk : s.key k = true) (hlow : ∀ j < k, s.key j = false) :
    execFx0A x s = .next (s.setReg x (BitVec.ofNat 8 k.val)) := by
  rw [execFx0A, State.lowestKey_eq_some.mpr ⟨hk, hlow⟩]

theorem execFx0A_of_no_key (h : ∀ k, s.key k = false) : execFx0A x s = .next (s.setPc (s.pc - 2)) := by
  rw [execFx0A, State.lowestKey_eq_none.mpr h]

theorem tickReply_opFx0A_of_lowest {k : Fin 16} (hk : s.key k = true) (hlow : ∀ j < k, s.key j = false) :
    tickReply (.opFx0A x) s = .executed := by
  simp only [tickReply, State.lowestKey_eq_some.mpr ⟨hk, hlow⟩]

theorem tickReply_opFx0A_of_no_key (h : ∀ k, s.key k = false) : tickReply (.opFx0A x) s = .waiting := by
  simp only [tickReply, State.lowestKey_eq_none.mpr h]

/-- Fx0A takes back the advance of PC that the fetch made. -/
theorem State.setPc_add_two_sub_two (s : State) : (s.setPc (s.pc + 2)).setPc (s.pc + 2 - 2) = s :=
  congrArg s.setPc (add_sub_cancel_right s.pc 2)

/-! ### The timers -/

theorem setDt_changesOnly (s : State) (b : Byte) : ChangesOnly (fun p => p = .delay) s (s.setDt b) := by
  intro p hp
  cases p with
  | delay => exact absurd rfl hp
  | rng => exact ⟨rfl, rfl⟩
  | reg | pc | index | stack | sound | byte | pixel | key | font | schedule => rfl

theorem setSt_changesOnly (s : State) (b : Byte) : ChangesOnly (fun p => p = .sound) s (s.setSt b) := by
  intro p hp
  cases p with
  | sound => exact absurd rfl hp
  | rng => exact ⟨rfl, rfl⟩
  | reg | pc | index | stack | delay | byte | pixel | key | font | schedule => rfl

/-- `tick_timers` signals tone end exactly where ST was 1 (60_exceptions.md R220). -/
theorem serve_tickTimers_toneEnd (s : State) :
    ∃ signal u, serve .tickTimers s = .next (.toneEnd signal, u) ∧ (signal = true ↔ s.st.toNat = 1) :=
  ⟨s.st == 1, _, rfl, beq_iff_eq.trans BitVec.toNat_inj.symm⟩

/-! ### The instructions -/

/-- Settles O38: with a lowest pressed key Vx takes its number (`execFx0A_of_lowest`); with none PC goes back to where the tick
fetched from (`State.setPc_add_two_sub_two`). The fetch moves no key, so the tick's reply is split on the same keys. -/
theorem keyWaitTakesLowestKeyOrRepeats : Obligations.KeyWaitTakesLowestKeyOrRepeats := by
  refine fun x s => ⟨isOpcodeOf_misc x 0x0A rfl rfl, fun k hk hlow => ⟨?taken, fun hi => ?executed⟩,
    fun hnone => ⟨?repeated, fun hi => ?waiting⟩⟩
  case taken =>
    refine ⟨_, execFx0A_of_lowest hk hlow, ?_, setReg_changesOnly s x _⟩
    rw [State.setReg_reg_self, toNat_ofNat_of_lt_256 (by omega)]
  case executed =>
    have hx := execFx0A_of_lowest (s := s.setPc (s.pc + 2)) (x := x) hk hlow
    rw [transact_tick_of_exec_next hi hx, tickReply_opFx0A_of_lowest hk hlow]
  case repeated => exact ⟨_, execFx0A_of_no_key hnone, rfl, setPc_changesOnly s _⟩
  case waiting =>
    have hx := execFx0A_of_no_key (s := s.setPc (s.pc + 2)) (x := x) hnone
    rw [transact_tick_of_exec_next hi hx, tickReply_opFx0A_of_no_key hnone, State.setPc_pc, State.setPc_add_two_sub_two]

/-- Settles O39: Fx07 writes one register (`setReg_changesOnly`), Fx15 and Fx18 one timer each (`setDt_changesOnly`,
`setSt_changesOnly`); the signal after Fx18 is that of `tick_timers` on the ST it wrote (`serve_tickTimers_toneEnd`). -/
theorem timerTransfers : Obligations.TimerTransfers := by
  refine fun x s => ⟨isOpcodeOf_misc x 0x07 rfl rfl, isOpcodeOf_misc x 0x15 rfl rfl, isOpcodeOf_misc x 0x18 rfl rfl,
    ?readDelay, ?writeDelay, ?writeSound⟩
  case readDelay => exact ⟨s.setReg x s.dt, rfl, State.setReg_reg_self s x s.dt, setReg_changesOnly s x s.dt⟩
  case writeDelay => exact ⟨s.setDt (s.reg x), rfl, rfl, setDt_changesOnly s (s.reg x)⟩
  case writeSound =>
    exact ⟨s.setSt (s.reg x), rfl, rfl, setSt_changesOnly s (s.reg x), serve_tickTimers_toneEnd (s.setSt (s.reg x))⟩

end Sys2Proof.Machine

/-! The host's timer and keypad commands (60_exceptions.md). How a timer counts down is said once for both timers. The keypad
commands all check their index first: what follows the check, inside the keypad and outside it, is said once for the three. -/

namespace Sys2Proof.Machine

variable {k : Nat} {s : State}

/-! ### The timers (R220, R221) -/

/-- A timer counts down by one and stops at 0, so the subtraction never wraps. -/
theorem countDown_toNat (b : Byte) :
    (if b = 0 then 0 else b - 1 : Byte).toNat = if b.toNat > 0 then b.toNat - 1 else 0 := by
  by_cases hb : b = 0
  · rw [if_pos hb, hb]
    rfl
  · have hpos : 0 < b.toNat := Nat.pos_of_ne_zero fun h0 => hb (BitVec.eq_of_toNat_eq h0)
    rw [if_neg hb, if_pos hpos]
    exact BitVec.toNat_sub_of_le hpos

/-- Settles O42: the signal is `serve_tickTimers_toneEnd`, each timer counts down by `countDown_toNat`, and the two timers are
written one after the other (`setDt_changesOnly`, `setSt_changesOnly`). -/
theorem timersCountDownAndSignalToneEnd : Obligations.TimersCountDownAndSignalToneEnd := by
  intro s
  obtain ⟨signal, t, hserve, hsignal⟩ := serve_tickTimers_toneEnd s
  refine ⟨t, signal, hserve, hsignal, ?_⟩
  cases hserve
  exact ⟨countDown_toNat s.dt, countDown_toNat s.st, changesOnly_trans (setDt_changesOnly s _) (setSt_changesOnly _ _)⟩

/-! ### The keypad (R225 to R228) -/

theorem andThen_keyIndex_lt {β : Type} (h : k < 16) (f : Fin 16 → Host.Outcome β Fault Refusal) :
    andThen (keyIndex k) f = f ⟨k, h⟩ := by
  rw [keyIndex_lt h, andThen_next]

/-- A command that checks a key index first ends, outside the keypad, in `InvalidKeypadIndex` with the state as it was. -/
theorem transact_of_keyIndex_ge {c : HostCommand} {f : Fin 16 → Host.Outcome (Reply × State) Fault Refusal} (h : 16 ≤ k)
    (hc : serve c s = andThen (keyIndex k) f) : transact c s = (.fault (.invalidKeypadIndex k), s) :=
  transact_of_serve_fault (hc.trans (by rw [keyIndex_ge (Nat.not_lt.mpr h), andThen_raise, raise]))

/-- Press and release, inside the keypad: the key takes the level that the command gives it, and nothing else changes. -/
theorem serve_writes_key {c : HostCommand} {b : Bool} (h : k < 16)
    (hc : serve c s = andThen (keyIndex k) fun j => .next (.done, s.setKey j b)) :
    ∃ t, serve c s = .next (.done, t) ∧ t.key ⟨k, h⟩ = b ∧ ChangesOnly (fun p => p = .key ⟨k, h⟩) s t :=
  ⟨s.setKey ⟨k, h⟩ b, hc.trans (andThen_keyIndex_lt h _), (State.setKey_key s _ b _).trans (if_pos rfl),
    setKey_changesOnly s _ b⟩

/-- Settles O43: inside the keypad press and release write the one key (`serve_writes_key`) and `is_pressed` reads it
(`andThen_keyIndex_lt`); outside it the check of the index is the command's error (`transact_of_keyIndex_ge`). -/
theorem keypadCommandsSetClearQuery : Obligations.KeypadCommandsSetClearQuery := by
  refine fun k s => ⟨fun h => ⟨?press, ?release, ?query⟩, fun h => ⟨?pressFault, ?releaseFault, ?queryFault⟩⟩
  case press => exact serve_writes_key h rfl
  case release => exact serve_writes_key h rfl
  case query => exact andThen_keyIndex_lt h _
  case pressFault => exact transact_of_keyIndex_ge h rfl
  case releaseFault => exact transact_of_keyIndex_ge h rfl
  case queryFault => exact transact_of_keyIndex_ge h rfl

end Sys2Proof.Machine

/-! What an instruction can change, said once (10_state.md R23 to R34, 20_memory.md R56): every instruction keeps every part of the
state that `State.mayWrite` does not name (`exec_changesOnly`), and the memory list itself unless it is Fx33 or Fx55
(`exec_next_mem`). The statements about writers follow from these two. -/

namespace Sys2Proof.Machine

variable {s t : State} {i : Instr}

/-! ### Frames of the updates that have none yet -/

theorem rng_changesOnly (s : State) (draws : List Byte) (n : Nat) :
    ChangesOnly (fun p => p = .rng) s { s with draws := draws, drawCount := n } := by
  intro p hp
  cases p with
  | rng => exact absurd rfl hp
  | reg | pc | index | stack | delay | sound | byte | pixel | key | font | schedule => rfl

theorem skipIf_changesOnly {c : Bool} (h : skipIf c s = .next t) : ChangesOnly (fun p => p = .pc) s t := by
  obtain ⟨u, hu, -, -, hframe⟩ := skipIf_completes (s := s) (c := c) (P := c = true) (Q := c = false) id id
  obtain rfl : t = u := Host.Outcome.next.inj (h.symm.trans hu)
  exact hframe

/-! ### What the instructions that can end in an error do where they complete -/

theorem exec00EE_eq_next :
    exec00EE s = .next t ↔ ∃ front v, s.stack = front ++ [v] ∧ t = (s.setStack front).setPc v := by
  simp only [exec00EE, andThen_eq_next, pop_eq_next, Host.Outcome.next.injEq]
  constructor
  · rintro ⟨_, ⟨front, v, hs, rfl⟩, rfl⟩
    exact ⟨front, v, hs, rfl⟩
  · rintro ⟨front, v, hs, rfl⟩
    exact ⟨_, ⟨front, v, hs, rfl⟩, rfl⟩

theorem exec2nnn_eq_next {nnn : Word} :
    exec2nnn nnn s = .next t ↔ s.stack.length < 16 ∧ t = (s.setStack (s.stack ++ [s.pc])).setPc nnn := by
  simp only [exec2nnn, andThen_eq_next, push_eq_next, Host.Outcome.next.injEq]
  constructor
  · rintro ⟨_, ⟨hlt, rfl⟩, rfl⟩
    exact ⟨hlt, rfl⟩
  · rintro ⟨hlt, rfl⟩
    exact ⟨_, ⟨hlt, rfl⟩, rfl⟩

/-- The two skips on a key, where they complete, are a skip. -/
theorem skipIf_of_andThen_keyOperand {x : RegIdx} {c : Fin 16 → Bool}
    (h : (andThen (s.keyOperand x) fun k => skipIf (c k) s) = .next t) : ∃ k, skipIf (c k) s = .next t := by
  obtain ⟨k, -, hskip⟩ := andThen_eq_next.mp h
  exact ⟨k, hskip⟩

theorem execFx0A_eq_next {x : RegIdx} (h : execFx0A x s = .next t) :
    ((∃ j, s.key j = true) ∧ ∃ b, t = s.setReg x b) ∨ ((∀ j, s.key j = false) ∧ t = s.setPc (s.pc - 2)) := by
  unfold execFx0A at h
  split at h <;> cases h
  next k hk => exact .inl ⟨⟨k, (State.lowestKey_eq_some.mp hk).1⟩, _, rfl⟩
  next hk => exact .inr ⟨State.lowestKey_eq_none.mp hk, rfl⟩

/-! ### What an instruction may write -/

/-- The parts of the state that an instruction may write; for Fx0A they depend on whether a key is pressed (R187). -/
def State.mayWrite (s : State) : Instr → Part → Prop
  | .op6xkk x _, p | .op7xkk x _, p | .op8xy0 x _, p | .op8xy1 x _, p | .op8xy2 x _, p | .op8xy3 x _, p | .opFx07 x, p =>
    p = .reg x
  | .op8xy4 x _, p | .op8xy5 x _, p | .op8xy6 x _, p | .op8xy7 x _, p | .op8xyE x _, p => p = .reg x ∨ p = .reg 15
  | .opCxkk x _, p => p = .rng ∨ p = .reg x
  | .opFx65 x, p => ∃ k, k ≤ x ∧ p = .reg k
  | .opFx0A x, p => ((∃ j, s.key j = true) ∧ p = .reg x) ∨ ((∀ j, s.key j = false) ∧ p = .pc)
  | .op1nnn _, p | .opBnnn _, p | .op3xkk _ _, p | .op4xkk _ _, p | .op5xy0 _ _, p | .op9xy0 _ _, p | .opEx9E _, p
  | .opExA1 _, p => p = .pc
  | .op00EE, p | .op2nnn _, p => p = .pc ∨ p = .stack
  | .opAnnn _, p | .opFx1E _, p | .opFx29 _, p => p = .index
  | .opFx15 _, p => p = .delay
  | .opFx18 _, p => p = .sound
  | .op00E0, p => ∃ c r, p = .pixel c r
  | .opDxyn _ _ _, p => (∃ c r, p = .pixel c r) ∨ p = .reg 15
  | .opFx33 _, p | .opFx55 _, p => ∃ a, p = .byte a

theorem setFb_changesOnly_pixels (s : State) (f : Framebuffer) :
    ChangesOnly (fun p => ∃ c r, p = .pixel c r) s (s.setFb f) :=
  changesOnly_mono (fun _ ⟨c, r, hp, _⟩ => ⟨c, r, hp⟩)
    (setFb_changesOnly s f (P := fun _ _ => True) fun _ _ h => absurd trivial h)

theorem setBytes_changesOnly_bytes (s : State) (a : Nat) (bs : List Byte) :
    ChangesOnly (fun p => ∃ b, p = .byte b) s (s.setBytes a bs) :=
  changesOnly_mono (fun _ ⟨_, _, hp⟩ => ⟨_, hp⟩) (setBytes_changesOnly s a bs)

/-- Every instruction that completes changes only the parts it may write. -/
theorem exec_changesOnly (h : exec i s = .next t) : ChangesOnly (s.mayWrite i) s t := by
  cases i with
  | op6xkk | op7xkk | op8xy0 | op8xy1 | op8xy2 | op8xy3 | opFx07 => cases h; exact setReg_changesOnly s _ _
  | op8xy4 | op8xy5 | op8xy6 | op8xy7 | op8xyE => cases h; exact setResultFlag_changesOnly s _ _ _
  | opCxkk x kk => cases h; exact changesOnly_trans (rng_changesOnly s _ _) (setReg_changesOnly s.drawn x _)
  | op1nnn | opBnnn => cases h; exact setPc_changesOnly s _
  | op3xkk | op4xkk | op5xy0 | op9xy0 => exact skipIf_changesOnly h
  | opEx9E | opExA1 =>
    obtain ⟨_, hskip⟩ := skipIf_of_andThen_keyOperand h
    exact skipIf_changesOnly hskip
  | op00EE =>
    obtain ⟨front, v, -, rfl⟩ := exec00EE_eq_next.mp h
    exact setStack_setPc_changesOnly s front v
  | op2nnn nnn =>
    obtain ⟨-, rfl⟩ := exec2nnn_eq_next.mp h
    exact setStack_setPc_changesOnly s _ nnn
  | opAnnn | opFx1E | opFx29 => cases h; exact setI_changesOnly s _
  | opFx15 => cases h; exact setDt_changesOnly s _
  | opFx18 => cases h; exact setSt_changesOnly s _
  | op00E0 => cases h; exact setFb_changesOnly_pixels s _
  | opDxyn =>
    obtain ⟨-, h⟩ := checkSpan_eq_next.mp h
    cases h
    exact changesOnly_trans (setFb_changesOnly_pixels s _) (setReg_changesOnly _ 15 _)
  | opFx33 | opFx55 =>
    obtain ⟨-, h⟩ := checkSpan_eq_next.mp h
    cases h
    exact setBytes_changesOnly_bytes s _ _
  | opFx65 x =>
    obtain ⟨-, h⟩ := checkSpan_eq_next.mp h
    cases h
    exact setRegs_changesOnly s _ fun k hk => by rw [State.regsFromMemory_getElem, if_neg hk]
  | opFx0A x =>
    obtain ⟨hkey, b, rfl⟩ | ⟨hnone, rfl⟩ := execFx0A_eq_next h
    · exact changesOnly_mono (fun _ hp => .inl ⟨hkey, hp⟩) (setReg_changesOnly s x b)
    · exact changesOnly_mono (fun _ hp => .inr ⟨hnone, hp⟩) (setPc_changesOnly s _)

/-- A part that an instruction changed is one that it may write. -/
theorem mayWrite_of_changed {p : Part} (h : exec i s = .next t) (hne : ¬ s.sameAt t p) : s.mayWrite i p :=
  by_contra fun hp => hne (exec_changesOnly h p hp)

theorem skipIf_next_mem {c : Bool} (h : skipIf c s = .next t) : t.mem = s.mem := by
  cases c <;> cases h <;> rfl

/-- Memory, as a list, is left alone by every instruction but Fx33 and Fx55. That it reads the same would follow from
`exec_changesOnly`; that it is the same list does not. -/
theorem exec_next_mem (hi : ∀ x, i ≠ .opFx33 x ∧ i ≠ .opFx55 x) (h : exec i s = .next t) : t.mem = s.mem := by
  cases i with
  | opFx33 x => exact absurd rfl (hi x).1
  | opFx55 x => exact absurd rfl (hi x).2
  | op3xkk | op4xkk | op5xy0 | op9xy0 => exact skipIf_next_mem h
  | opEx9E | opExA1 =>
    obtain ⟨_, hskip⟩ := skipIf_of_andThen_keyOperand h
    exact skipIf_next_mem hskip
  | op00EE => obtain ⟨front, v, -, rfl⟩ := exec00EE_eq_next.mp h; rfl
  | op2nnn => obtain ⟨-, rfl⟩ := exec2nnn_eq_next.mp h; rfl
  | opFx0A => obtain ⟨-, b, rfl⟩ | ⟨-, rfl⟩ := execFx0A_eq_next h <;> rfl
  | opDxyn | opFx65 =>
    obtain ⟨-, h⟩ := checkSpan_eq_next.mp h
    cases h
    rfl
  | op00E0 | op1nnn | op6xkk | op7xkk | op8xy0 | op8xy1 | op8xy2 | op8xy3 | op8xy4 | op8xy5 | op8xy6 | op8xy7 | op8xyE
  | opAnnn | opBnnn | opCxkk | opFx07 | opFx15 | opFx18 | opFx1E | opFx29 => cases h; rfl

/-! ### The instructions that may write a part -/

theorem mayWrite_reg_iff {k : RegIdx} :
    s.mayWrite i (.reg k) ↔
      (∃ kk, i = .op6xkk k kk ∨ i = .op7xkk k kk ∨ i = .opCxkk k kk) ∨
      (∃ y, i = .op8xy0 k y ∨ i = .op8xy1 k y ∨ i = .op8xy2 k y ∨ i = .op8xy3 k y) ∨
      (∃ x y, (i = .op8xy4 x y ∨ i = .op8xy5 x y ∨ i = .op8xy6 x y ∨ i = .op8xy7 x y ∨ i = .op8xyE x y) ∧
        (k = x ∨ k = 15)) ∨
      (∃ x y n, i = .opDxyn x y n ∧ k = 15) ∨
      i = .opFx07 k ∨ (i = .opFx0A k ∧ ∃ j, s.key j = true) ∨ ∃ x, i = .opFx65 x ∧ k ≤ x := by
  cases i <;> simp [State.mayWrite, eq_comm (a := k), and_comm]

theorem mayWrite_pc_iff :
    s.mayWrite i .pc ↔
      i = .op00EE ∨ (∃ nnn, i = .op1nnn nnn ∨ i = .op2nnn nnn ∨ i = .opBnnn nnn) ∨
      (∃ x kk, i = .op3xkk x kk ∨ i = .op4xkk x kk) ∨ (∃ x y, i = .op5xy0 x y ∨ i = .op9xy0 x y) ∨
      (∃ x, i = .opEx9E x ∨ i = .opExA1 x) ∨ ∃ x, i = .opFx0A x ∧ ∀ j, s.key j = false := by
  cases i <;> simp [State.mayWrite]

theorem mayWrite_stack_iff : s.mayWrite i .stack ↔ i = .op00EE ∨ ∃ nnn, i = .op2nnn nnn := by
  cases i <;> simp [State.mayWrite]

theorem mayWrite_index_iff : s.mayWrite i .index ↔ (∃ nnn, i = .opAnnn nnn) ∨ ∃ x, i = .opFx1E x ∨ i = .opFx29 x := by
  cases i <;> simp [State.mayWrite]

theorem mayWrite_delay_iff : s.mayWrite i .delay ↔ ∃ x, i = .opFx15 x := by
  cases i <;> simp [State.mayWrite]

theorem mayWrite_sound_iff : s.mayWrite i .sound ↔ ∃ x, i = .opFx18 x := by
  cases i <;> simp [State.mayWrite]

theorem mayWrite_pixel_iff {c : Fin 64} {r : Fin 32} :
    s.mayWrite i (.pixel c r) ↔ i = .op00E0 ∨ ∃ x y n, i = .opDxyn x y n := by
  cases i <;> simp [State.mayWrite]

theorem mayWrite_rng_iff : s.mayWrite i .rng ↔ ∃ x kk, i = .opCxkk x kk := by
  cases i <;> simp [State.mayWrite]

theorem not_mayWrite_font : ¬ s.mayWrite i .font := by
  cases i <;> simp [State.mayWrite]

theorem not_mayWrite_schedule : ¬ s.mayWrite i .schedule := by
  cases i <;> simp [State.mayWrite]

/-! ### The parts that are compared piece by piece, and those that nothing writes -/

/-- A framebuffer that an instruction changed has a pixel that it may write. -/
theorem mayWrite_pixel_of_fb_changed (h : exec i s = .next t) (hne : t.fb ≠ s.fb) : ∃ c r, s.mayWrite i (.pixel c r) := by
  by_contra hnone
  exact hne (Framebuffer.ext_pixel fun c r => exec_changesOnly h (.pixel c r) fun hw => hnone ⟨c, r, hw⟩)

/-- An instruction that changed memory is one of the two that write it. -/
theorem eq_store_of_mem_changed (h : exec i s = .next t) (hne : t.mem ≠ s.mem) : ∃ x, i = .opFx33 x ∨ i = .opFx55 x := by
  by_contra! hi
  exact hne (exec_next_mem hi h)

theorem exec_next_keys (h : exec i s = .next t) : t.keys = s.keys :=
  Vector.ext fun j hj => exec_next_key (k := ⟨j, hj⟩) h

theorem exec_next_font (h : exec i s = .next t) : t.font = s.font := exec_changesOnly h .font not_mayWrite_font

theorem exec_next_schedule (h : exec i s = .next t) : t.schedule = s.schedule :=
  exec_changesOnly h .schedule not_mayWrite_schedule

/-! ### The statements -/

/-- Settles O46: a changed part is one the instruction may write (`mayWrite_of_changed`), and the listed writers are those that
may. The framebuffer is compared pixel by pixel, and memory as a list (`exec_next_mem`). -/
theorem eachPartHasItsWriters : Obligations.EachPartHasItsWriters := by
  intro i s t h
  have hw {p : Part} (hne : ¬ s.sameAt t p) : s.mayWrite i p := mayWrite_of_changed h hne
  refine ⟨fun k hne => mayWrite_reg_iff.mp (hw hne), fun hne => mayWrite_pc_iff.mp (hw hne),
    fun hne => mayWrite_stack_iff.mp (hw hne), fun hne => mayWrite_index_iff.mp (hw hne),
    fun hne => mayWrite_delay_iff.mp (hw hne), fun hne => mayWrite_sound_iff.mp (hw hne), fun hne => ?fb,
    eq_store_of_mem_changed h, fun hne => mayWrite_rng_iff.mp (hw hne), exec_next_keys h, exec_next_font h,
    exec_next_schedule h⟩
  case fb =>
    obtain ⟨c, r, hpixel⟩ := mayWrite_pixel_of_fb_changed h hne
    exact mayWrite_pixel_iff.mp hpixel

/-- Settles O47: the writers of VF are those of any register (`mayWrite_reg_iff`). The flag instructions write it whatever x is, and
the others only as Vx, where Fx65 reaches it with x = 15 alone. -/
theorem onlyFlagInstructionsWriteVfUnasked : Obligations.OnlyFlagInstructionsWriteVfUnasked := by
  intro i s t h hne
  have hw : s.mayWrite i (.reg 15) := mayWrite_of_changed h hne
  obtain hbyte | hcopy | ⟨x, y, hflag, -⟩ | ⟨x, y, n, hdraw, -⟩ | hdelay | ⟨hkey, -⟩ | ⟨x, hload, hx⟩ :=
    mayWrite_reg_iff.mp hw
  · exact .inr (.inr (.inl hbyte))
  · exact .inr (.inr (.inr (.inl hcopy)))
  · exact .inl ⟨x, y, hflag⟩
  · exact .inr (.inl ⟨x, y, n, hdraw⟩)
  · exact .inr (.inr (.inr (.inr (.inl hdelay))))
  · exact .inr (.inr (.inr (.inr (.inr (.inl hkey)))))
  · obtain rfl : x = 15 := Fin.last_le_iff.mp hx
    exact .inr (.inr (.inr (.inr (.inr (.inr hload)))))

end Sys2Proof.Machine

/-! The invariant (10_state.md R26, R27; notes/assumptions/10.md). A tick runs a well-formed instruction on a state whose PC is a
post-fetch PC, in 2..4096; each of the four parts of the invariant is then followed through `exec`, one lemma each. -/

namespace Sys2Proof.Machine

variable {s t : State} {i : Instr}

theorem construct_inv (font : Font) (schedule : List HostCommand) (draws : List Byte) (n : Nat) :
    (State.construct font schedule draws n).Inv where
  memory := Memory.nil_wf font
  depth := Nat.zero_le 16
  returns := nofun
  pc := (by decide : (0x200 : Word).toNat ≤ 0x10FE)

/-- Settles O51: both are a state of construction. -/
theorem resetMeetsInvariant : Obligations.ResetMeetsInvariant :=
  ⟨construct_inv _ _ _ _, construct_inv⟩

/-- The invariant is about memory, the font, the stack and PC alone. -/
theorem State.Inv.congr (h : s.Inv) (hmem : t.mem = s.mem) (hfont : t.font = s.font) (hstack : t.stack = s.stack)
    (hpc : t.pc = s.pc) : t.Inv where
  memory := by rw [hmem, hfont]; exact h.memory
  depth := by rw [hstack]; exact h.depth
  returns := by rw [hstack]; exact h.returns
  pc := by rw [hpc]; exact h.pc

/-- Bytes written inside memory keep the invariant. -/
theorem setBytes_inv (h : s.Inv) {a : Nat} {bs : List Byte} (hb : spanInMemory a bs.length) : (s.setBytes a bs).Inv where
  memory := by rw [State.setBytes_font]; exact State.setBytes_wf s a bs h.memory hb
  depth := by rw [State.setBytes_stack]; exact h.depth
  returns := by rw [State.setBytes_stack]; exact h.returns
  pc := by rw [State.setBytes_pc]; exact h.pc

/-! ### One instruction, on a state with a post-fetch PC -/

theorem exec_next_mem_wf (h : exec i s = .next t) (hm : s.mem.wf s.font) : t.mem.wf t.font := by
  rw [exec_next_font h]
  cases i with
  | opFx33 | opFx55 =>
    obtain ⟨hspan, h⟩ := checkSpan_eq_next.mp h
    cases h
    exact State.setBytes_wf s _ _ hm (by simpa using hspan)
  -- The others leave the list alone.
  | _ =>
    rw [exec_next_mem (by simp) h]
    exact hm

/-- What 00EE and 2nnn do to the stack (R27); the others leave it alone. -/
theorem exec_next_stack (h : exec i s = .next t) :
    t.stack = s.stack ∨ (∃ v, s.stack = t.stack ++ [v]) ∨ (s.stack.length < 16 ∧ t.stack = s.stack ++ [s.pc]) := by
  by_cases hi : s.mayWrite i .stack
  · obtain rfl | ⟨nnn, rfl⟩ := mayWrite_stack_iff.mp hi
    · obtain ⟨front, v, hs, rfl⟩ := exec00EE_eq_next.mp h
      exact .inr (.inl ⟨v, hs⟩)
    · obtain ⟨hlt, rfl⟩ := exec2nnn_eq_next.mp h
      exact .inr (.inr ⟨hlt, rfl⟩)
  · exact .inl (exec_changesOnly h .stack hi)

/-- A skip from a post-fetch PC stays within the bound of R26. -/
theorem skipIf_next_pc_le {c : Bool} (h : skipIf c s = .next t) (hpc : s.pc.toNat ≤ 4096) : t.pc.toNat ≤ 0x10FE := by
  cases c <;> cases h
  · exact le_trans hpc (by decide)
  · have hskip : (s.pc + 2).toNat = s.pc.toNat + 2 := by bv_omega
    rw [if_pos rfl, State.setPc_pc, hskip]
    omega

/-- Where an instruction leaves PC (R25, R26); the bound is reached by Bnnn, at 255 + 4095. -/
theorem exec_next_pc_le (h : exec i s = .next t) (hi : i.wellFormed = true) (hlow : 2 ≤ s.pc.toNat)
    (hhigh : s.pc.toNat ≤ 4096) (hret : ∀ a ∈ s.stack, a.toNat ≤ 4096) : t.pc.toNat ≤ 0x10FE := by
  cases i with
  | op00EE =>
    obtain ⟨front, v, hs, rfl⟩ := exec00EE_eq_next.mp h
    exact le_trans (hret v (by simp [hs])) (by decide)
  | op1nnn nnn =>
    cases h
    exact le_trans (of_decide_eq_true hi).le (by decide)
  | op2nnn nnn =>
    obtain ⟨-, rfl⟩ := exec2nnn_eq_next.mp h
    exact le_trans (of_decide_eq_true hi).le (by decide)
  | opBnnn nnn =>
    cases h
    have hnnn : nnn.toNat < 4096 := of_decide_eq_true hi
    have hv := (s.reg 0).isLt
    rw [State.setPc_pc, BitVec.toNat_ofNat]
    omega
  | op3xkk | op4xkk | op5xy0 | op9xy0 => exact skipIf_next_pc_le h hhigh
  | opEx9E | opExA1 =>
    obtain ⟨_, hskip⟩ := skipIf_of_andThen_keyOperand h
    exact skipIf_next_pc_le hskip hhigh
  | opFx0A =>
    obtain ⟨-, b, rfl⟩ | ⟨-, rfl⟩ := execFx0A_eq_next h
    · exact le_trans hhigh (by decide)
    · have hback : (s.pc - 2).toNat = s.pc.toNat - 2 := by bv_omega
      rw [State.setPc_pc, hback]
      omega
  -- The others may not write PC.
  | _ =>
    rw [exec_changesOnly h .pc (by simp [State.mayWrite])]
    exact le_trans hhigh (by decide)

/-- An instruction that a tick may run keeps the invariant, from the state with the post-fetch PC. -/
theorem exec_keeps_inv (hs : s.Inv) (h : exec i s = .next t) (hi : i.wellFormed = true) (hlow : 2 ≤ s.pc.toNat)
    (hhigh : s.pc.toNat ≤ 4096) : t.Inv := by
  have hreturns : t.stack.length ≤ 16 ∧ ∀ a ∈ t.stack, 2 ≤ a.toNat ∧ a.toNat ≤ 4096 := by
    obtain hsame | ⟨v, hpop⟩ | ⟨hroom, hpush⟩ := exec_next_stack h
    · rw [hsame]
      exact ⟨hs.depth, hs.returns⟩
    · have hdepth := hs.depth
      rw [hpop, List.length_append] at hdepth
      exact ⟨by omega, fun a ha => hs.returns a (hpop ▸ List.mem_append_left [v] ha)⟩
    · rw [hpush, List.length_append]
      refine ⟨hroom, fun a ha => ?_⟩
      obtain ha | ha := List.mem_append.mp ha
      · exact hs.returns a ha
      · obtain rfl := List.mem_singleton.mp ha
        exact ⟨hlow, hhigh⟩
  exact ⟨exec_next_mem_wf h hs.memory, hreturns.1, hreturns.2,
    exec_next_pc_le h hi hlow hhigh fun a ha => (hs.returns a ha).2⟩

/-! ### One command of the host -/

theorem tick_keeps_inv {r : Reply} (hs : s.Inv) (h : tick s = .next (r, t)) : t.Inv := by
  obtain ⟨i, hi, hx, -⟩ := tick_eq_next.mp h
  obtain ⟨hpc, hd⟩ := runsNext_iff.mp hi
  have hpost : (s.pc + 2).toNat = s.pc.toNat + 2 := by bv_omega
  have hinv : (s.setPc (s.pc + 2)).Inv :=
    ⟨hs.memory, hs.depth, hs.returns, by rw [State.setPc_pc, hpost]; omega⟩
  refine exec_keeps_inv hinv hx (decodeWord_wellFormed hd) ?_ ?_ <;> rw [State.setPc_pc, hpost] <;> omega

/-- Every command of the host keeps the invariant. -/
theorem serve_keeps_inv {c : HostCommand} {r : Reply} (hs : s.Inv) (h : serve c s = .next (r, t)) : t.Inv := by
  cases c with
  | tick => exact tick_keeps_inv hs h
  | load rom =>
    obtain ⟨hlen, h⟩ := check_eq_next.mp h
    cases h
    exact setBytes_inv hs (by simp only [spanInMemory]; omega)
  | reset => cases h; exact construct_inv _ _ _ _
  | press k | release k | isPressed k =>
    obtain ⟨j, -, h⟩ := andThen_eq_next.mp h
    cases h
    exact hs.congr rfl rfl rfl rfl
  | tickTimers | display => cases h; exact hs.congr rfl rfl rfl rfl

/-- Settles O52: a step serves one command (`serve_keeps_inv`) on the state with that command taken off the schedule. -/
theorem everyStepKeepsInvariant : Obligations.EveryStepKeepsInvariant := by
  intro s t hs h
  obtain ⟨r, hserve⟩ := step_eq_next.mp h
  have hpop : (popSchedule s).Inv := hs.congr rfl rfl rfl rfl
  exact serve_keeps_inv hpop hserve

end Sys2Proof.Machine

/-! The encoder and the decoder against each other (30_encoding.md R73 to R77). A word is put together again from the fields that
its format names, so nothing of it is lost on the way through the decoder; and each family rejects by the field it selects by. -/

namespace Sys2Proof

variable {op : Word} {i : Instr} {o n : Nat}

/-! ### A word from its fields (R72, R73) -/

theorem formatA_fields (ho : nibble1 op = o) : formatA o (fieldNNN op) = op := by
  have hop := op.isLt
  rw [nibble1_eq] at ho
  apply BitVec.eq_of_toNat_eq
  rw [formatA_toNat (by omega) (by rw [fieldNNN_toNat]; omega), fieldNNN_toNat]
  omega

theorem formatXK_fields {kk : Byte} (ho : nibble1 op = o) (hk : (fieldKK op).toNat = kk.toNat) :
    formatXK o (fieldX op) kk = op := by
  have hop := op.isLt
  rw [nibble1_eq] at ho
  apply BitVec.eq_of_toNat_eq
  rw [formatXK_toNat _ _ (by omega), fieldX_val, ← hk, fieldKK_toNat]
  omega

theorem formatXYN_fields (ho : nibble1 op = o) (hn : fieldN op = n) : formatXYN o (fieldX op) (fieldY op) n = op := by
  have hop := op.isLt
  rw [nibble1_eq] at ho
  rw [fieldN_eq] at hn
  apply BitVec.eq_of_toNat_eq
  rw [formatXYN_toNat _ _ (by omega) (by omega), fieldX_val, fieldY_val]
  omega

/-! ### What the decoder gives encodes back -/

theorem encode_of_decodeZ (h : decodeZ op = .ok i) : encode i = op := by
  unfold decodeZ at h
  split at h
  case isTrue hop => cases h; exact hop.symm
  case isFalse =>
    split at h
    case isTrue hop => cases h; exact hop.symm
    case isFalse => cases h

theorem encode_of_decodeAlu (ho : nibble1 op = 8) (h : decodeAlu op = .ok i) : encode i = op := by
  unfold decodeAlu at h
  split at h <;> cases h
  all_goals exact formatXYN_fields ho ‹_›

theorem encode_of_decodeKey (ho : nibble1 op = 14) (h : decodeKey op = .ok i) : encode i = op := by
  unfold decodeKey at h
  split at h <;> cases h
  all_goals exact formatXK_fields ho ‹_›

theorem encode_of_decodeMisc (ho : nibble1 op = 15) (h : decodeMisc op = .ok i) : encode i = op := by
  unfold decodeMisc at h
  split at h <;> cases h
  all_goals exact formatXK_fields ho ‹_›

theorem encode_of_decodeWord (h : decodeWord op = .ok i) : encode i = op := by
  unfold decodeWord at h
  split at h
  case h_1 => exact encode_of_decodeZ h
  case h_9 ho => exact encode_of_decodeAlu ho h
  case h_15 ho => exact encode_of_decodeKey ho h
  case h_16 ho => exact encode_of_decodeMisc ho h
  -- 5xy0 and 9xy0, the two other families that `n` selects in.
  case h_6 ho | h_10 ho =>
    split at h <;> cases h
    exact formatXYN_fields ho ‹_›
  case h_17 => cases h
  -- The families of one instruction, by the format of each.
  case h_2 ho | h_3 ho | h_11 ho | h_12 ho => cases h; exact formatA_fields ho
  case h_4 ho | h_5 ho | h_7 ho | h_8 ho | h_13 ho => cases h; exact formatXK_fields ho rfl
  case h_14 ho => cases h; exact formatXYN_fields ho rfl

/-- Settles O2: the two bytes hold the encoded word (`decode_wordBytes`), which decodes to its instruction
(`decodeWord_encode`). -/
theorem encodedInstructionsDecodeBack : Obligations.EncodedInstructionsDecodeBack := by
  refine fun i rest hi => ⟨?_, decodeWord_encode hi⟩
  rw [encodeBytes, decode_wordBytes, decodeWord_encode hi]
  rfl

/-- Settles O3: the word is put together again from the fields that were decoded (`encode_of_decodeWord`). -/
theorem decodedWordsEncodeBack : Obligations.DecodedWordsEncodeBack :=
  fun _ _ h => ⟨encode_of_decodeWord h, decodeWord_wellFormed h⟩

/-! ### The words that each family rejects (R77) -/

theorem not_exists_decodeZ_iff : (¬ ∃ i, decodeZ op = .ok i) ↔ op.toNat ≠ 0x00E0 ∧ op.toNat ≠ 0x00EE := by
  have hE0 : op.toNat = 0x00E0 ↔ op = 0x00E0 := BitVec.toNat_inj (y := 0x00E0)
  have hEE : op.toNat = 0x00EE ↔ op = 0x00EE := BitVec.toNat_inj (y := 0x00EE)
  rw [Ne, Ne, hE0, hEE, decodeZ]
  split
  · simp_all
  · split <;> simp_all

theorem not_exists_decodeAlu_iff :
    (¬ ∃ i, decodeAlu op = .ok i) ↔ fieldN op ∈ [0x8, 0x9, 0xA, 0xB, 0xC, 0xD, 0xF] := by
  have hn : fieldN op < 16 := by rw [fieldN_eq]; omega
  unfold decodeAlu
  split <;> grind

theorem not_exists_decodeKey_iff : (¬ ∃ i, decodeKey op = .ok i) ↔ (fieldKK op).toNat ∉ [0x9E, 0xA1] := by
  unfold decodeKey
  split <;> simp_all

theorem not_exists_decodeMisc_iff :
    (¬ ∃ i, decodeMisc op = .ok i) ↔
      (fieldKK op).toNat ∉ [0x07, 0x0A, 0x15, 0x18, 0x1E, 0x29, 0x33, 0x55, 0x65] := by
  unfold decodeMisc
  split <;> simp_all

/-- Settles O5: by the major opcode. Each family rejects as the list says, and the families of one instruction reject nothing. -/
theorem invalidWordsAreExactlyTheListed : Obligations.InvalidWordsAreExactlyTheListed := by
  intro op
  have hlt : nibble1 op < 16 := by rw [nibble1_eq]; have := op.isLt; omega
  rw [show op.toNat / 0x1000 = nibble1 op from (nibble1_eq op).symm, ← fieldN_eq, ← fieldKK_toNat]
  unfold decodeWord
  split
  case h_1 ho => simpa [ho] using not_exists_decodeZ_iff
  case h_6 ho | h_10 ho => split <;> simp_all
  case h_9 ho => simpa [ho] using not_exists_decodeAlu_iff
  case h_15 ho => simpa [ho] using not_exists_decodeKey_iff
  case h_16 ho => simpa [ho] using not_exists_decodeMisc_iff
  case h_17 => grind
  all_goals simp [*]

end Sys2Proof

namespace Sys2Proof.Machine

/-- Settles O1: the words are the encodings of the instructions, and the others are in the list of O5. -/
theorem writtenOutWordsDecode : Obligations.WrittenOutWordsDecode := by
  refine ⟨isOpcodeOf_of_encode_toNat rfl rfl, isOpcodeOf_of_encode_toNat rfl rfl, isOpcodeOf_of_encode_toNat rfl rfl,
    isOpcodeOf_of_encode_toNat rfl rfl, isOpcodeOf_of_encode_toNat rfl rfl, isOpcodeOf_of_encode_toNat rfl rfl,
    isOpcodeOf_of_encode_toNat rfl rfl, isOpcodeOf_of_encode_toNat rfl rfl, isOpcodeOf_of_encode_toNat rfl rfl,
    isOpcodeOf_of_encode_toNat rfl rfl, isOpcodeOf_of_encode_toNat rfl rfl, fun w hw => not_exists.mp ?_⟩
  refine (invalidWordsAreExactlyTheListed _).mpr ?_
  revert w
  decide

end Sys2Proof.Machine

/-! Errors (60_exceptions.md R200 to R205): which instruction raises which, said once in `exec_eq_fault`; and that nothing is
refused, operation by operation. -/

namespace Sys2Proof.Machine

variable {s t : State} {i : Instr} {e : Fault} {x : RegIdx}

/-! ### The errors of the instructions -/

theorem exec00EE_eq_fault : exec00EE s = .fault e ↔ s.stack = [] ∧ e = .stackUnderflow := by
  simp [exec00EE, andThen_eq_fault, pop_eq_fault]

theorem exec2nnn_eq_fault {nnn : Word} : exec2nnn nnn s = .fault e ↔ 16 ≤ s.stack.length ∧ e = .stackOverflow := by
  simp [exec2nnn, andThen_eq_fault, push_eq_fault]

/-- A skip on a key raises an error exactly where Vx is no key index (R185, R186). -/
theorem keySkip_eq_fault {c : Fin 16 → Bool} :
    (andThen (s.keyOperand x) fun k => skipIf (c k) s) = .fault e ↔
      16 ≤ (s.reg x).toNat ∧ e = .invalidKeypadIndex (s.reg x).toNat := by
  simp [andThen_eq_fault, State.keyOperand, keyIndex_eq_fault, skipIf]

theorem execFx0A_ne_fault : execFx0A x s ≠ .fault e := by
  unfold execFx0A
  split <;> nofun

/-- Every error of an instruction, its cause and its payload (R200, R201). -/
theorem exec_eq_fault :
    exec i s = .fault e ↔
      (i = .op00EE ∧ s.stack = [] ∧ e = .stackUnderflow) ∨
      ((∃ nnn, i = .op2nnn nnn) ∧ 16 ≤ s.stack.length ∧ e = .stackOverflow) ∨
      (∃ x, (i = .opEx9E x ∨ i = .opExA1 x) ∧ 16 ≤ (s.reg x).toNat ∧ e = .invalidKeypadIndex (s.reg x).toNat) ∨
      (((∃ x, i = .opFx33 x ∧ 4096 ≤ s.i.toNat + 2) ∨
        (∃ x, (i = .opFx55 x ∨ i = .opFx65 x) ∧ 4096 ≤ s.i.toNat + x.val) ∨
        (∃ x y n, i = .opDxyn x y n ∧ 0 < n ∧ 4096 < s.i.toNat + n)) ∧
        e = .memoryOutOfBounds (max s.i.toNat 4096)) := by
  cases i with
  | op00EE => exact exec00EE_eq_fault.trans (by simp)
  | op2nnn => exact exec2nnn_eq_fault.trans (by simp)
  | opEx9E | opExA1 => exact keySkip_eq_fault.trans (by simp)
  | opFx33 | opFx55 | opFx65 => exact checkSpan_eq_fault.trans (by simp; omega)
  | opDxyn => exact checkSpan_eq_fault.trans (by simp)
  | opFx0A => exact iff_of_false execFx0A_ne_fault (by simp)
  -- The others answer `.next` whatever the state is.
  | _ => exact iff_of_false nofun (by simp)

/-- Settles O10: an error of a tick is one of the fetch, of the decoder or of the instruction (`tick_eq_fault`), and the fetch has
moved PC alone, which no error of an instruction depends on (`exec_eq_fault`). -/
theorem tickErrorsAreExactlyTheListed : Obligations.TickErrorsAreExactlyTheListed := by
  refine fun s e => tick_eq_fault.trans (or_congr fetch_eq_fault (or_congr Iff.rfl ?_))
  exact exists_congr fun i => and_congr_right fun _ => exec_eq_fault

/-- Settles O9: an error leaves the state as it was (`transact_of_serve_fault`), so the command finds the same state again. -/
theorem errorsChangeNoState : Obligations.ErrorsChangeNoState := by
  intro c s e h
  have hserve : serve c s = .fault e := by
    unfold transact at h
    split at h <;> cases h
    assumption
  have htransact := transact_of_serve_fault hserve
  rw [htransact]
  exact ⟨rfl, htransact⟩

/-! ### Nothing is refused -/

section Refusal
variable {α β : Type} {r : Refusal}

theorem andThen_ne_refused {o : Host.Outcome α Fault Refusal} {f : α → Host.Outcome β Fault Refusal}
    (ho : ∀ r, o ≠ .refused r) (hf : ∀ a r, f a ≠ .refused r) : andThen o f ≠ .refused r := by
  cases o with
  | next a => exact hf a r
  | fault e => nofun
  | refused r' => exact absurd rfl (ho r')

theorem check_next_ne_refused {c : Prop} [Decidable c] {a : α} : check c e (.next a) ≠ .refused r := by
  unfold check
  split <;> nofun

theorem keyIndex_ne_refused {k : Nat} : keyIndex k ≠ .refused r := by
  unfold keyIndex
  split <;> nofun

theorem pop_ne_refused : pop s ≠ .refused r := by
  unfold pop
  split <;> nofun

theorem fetch_ne_refused : fetch s ≠ .refused r :=
  andThen_ne_refused (fun _ => check_next_ne_refused) fun _ _ =>
    andThen_ne_refused (fun _ => check_next_ne_refused) fun _ _ => nofun

theorem exec_ne_refused : exec i s ≠ .refused r := by
  cases i with
  | op00EE => exact andThen_ne_refused (fun _ => pop_ne_refused) fun _ _ => nofun
  | op2nnn => exact andThen_ne_refused (fun _ => check_next_ne_refused) fun _ _ => nofun
  | opEx9E | opExA1 => exact andThen_ne_refused (fun _ => keyIndex_ne_refused) fun _ _ => nofun
  | opDxyn | opFx33 | opFx55 | opFx65 => exact check_next_ne_refused
  | opFx0A =>
    show execFx0A _ s ≠ _
    unfold execFx0A
    split <;> nofun
  -- The others answer `.next` whatever the state is.
  | _ => nofun

theorem executeWord_ne_refused {op : Word} : executeWord op s ≠ .refused r := by
  unfold executeWord
  split
  · nofun
  · exact andThen_ne_refused (fun _ => exec_ne_refused) fun _ _ => nofun

theorem serve_ne_refused {c : HostCommand} : serve c s ≠ .refused r := by
  cases c with
  | tick => exact andThen_ne_refused (fun _ => fetch_ne_refused) fun _ _ => executeWord_ne_refused
  | load => exact check_next_ne_refused
  | press | release | isPressed => exact andThen_ne_refused (fun _ => keyIndex_ne_refused) fun _ _ => nofun
  | reset | tickTimers | display => nofun

end Refusal

/-- Settles O11: no operation that the instructions and the commands are made of answers a refusal. -/
theorem nothingIsRefused : Obligations.NothingIsRefused :=
  ⟨fun _ _ _ => exec_ne_refused, fun _ _ => andThen_ne_refused (fun _ => serve_ne_refused) fun _ _ => nofun⟩

end Sys2Proof.Machine

/-! The tick and the step (10_state.md R39 to R41, 30_encoding.md R70): the reply of a tick, the step that serves a listed command,
and a step that leaves the state as it was. -/

namespace Sys2Proof.Machine

variable {s t : State} {i : Instr}

theorem tickReply_of_not_waiting (h : ¬ ((∃ x, i = .opFx0A x) ∧ ∀ k, s.key k = false)) : tickReply i s = .executed := by
  unfold tickReply
  split
  next x hnone => exact absurd ⟨⟨x, rfl⟩, State.lowestKey_eq_none.mp hnone⟩ h
  next => rfl

/-- Settles O8: the tick is `exec` of the decoded instruction, an error of it included, and its reply is `tickReply`. -/
theorem tickRepliesExecutedOrWaiting : Obligations.TickRepliesExecutedOrWaiting := by
  refine fun s i hi => ⟨fun t hx => ⟨?waiting, fun hnot => ?executed⟩, fun e hx => transact_tick_of_exec_fault hi hx⟩
  case waiting =>
    rintro ⟨⟨x, rfl⟩, hnone⟩
    rw [transact_tick_of_exec_next hi hx, tickReply_opFx0A_of_no_key hnone]
  case executed => rw [transact_tick_of_exec_next hi hx, tickReply_of_not_waiting hnot]

/-! ### The step -/

theorem step_of_schedule_cons {c : HostCommand} {rest : List HostCommand} (h : s.schedule = c :: rest) :
    step s = andThen (serve c (s.setSchedule rest)) fun r => .next r.2 := by
  rw [step, nextCommand, popSchedule, h, List.headD_cons, List.tail_cons]

/-- A step about to run `i`, with `tick` listed next. -/
theorem step_of_runsNext_of_tick_listed {rest : List HostCommand} (hs : s.schedule = .tick :: rest) (hi : s.runsNext i) :
    step s = exec i ((s.setSchedule rest).setPc (s.pc + 2)) := by
  have hi' : (s.setSchedule rest).runsNext i := hi
  rw [step_of_schedule_cons hs, serve, tick_of_runsNext hi', State.setSchedule_pc]
  cases exec i ((s.setSchedule rest).setPc (s.pc + 2)) <;> rfl

/-- Settles O7: with no command listed (`step_of_runsNext`) and with `tick` listed (`step_of_runsNext_of_tick_listed`). -/
theorem stepRunsDecodedInstruction : Obligations.StepRunsDecodedInstruction :=
  fun _ _ hi => ⟨fun hs => step_of_runsNext hs hi, fun _ hs => step_of_runsNext_of_tick_listed hs hi⟩

/-- No command of the host changes what is listed after it. -/
theorem serve_next_schedule {c : HostCommand} {r : Reply} (h : serve c s = .next (r, t)) : t.schedule = s.schedule := by
  cases c with
  | tick =>
    obtain ⟨i, -, hx, -⟩ := tick_eq_next.mp h
    exact (exec_next_schedule hx).trans (State.setPc_schedule s _)
  | load rom =>
    obtain ⟨-, h⟩ := check_eq_next.mp h
    cases h
    exact State.setBytes_schedule s _ rom
  | press | release | isPressed =>
    obtain ⟨_, -, h⟩ := andThen_eq_next.mp h
    cases h
    rfl
  | reset | tickTimers | display => cases h; rfl

/-- Settles O45: the step is the command served (`step_of_schedule_cons`), which leaves the rest of the schedule as it is
(`serve_next_schedule`). -/
theorem stepServesListedCommand : Obligations.StepServesListedCommand := by
  refine fun s c rest hs => ⟨fun r t hserve => ⟨?_, serve_next_schedule hserve⟩, fun e hserve => ?_⟩
  · rw [step_of_schedule_cons hs, hserve, andThen_next]
  · rw [step_of_schedule_cons hs, hserve, andThen_fault, raise]

/-! ### Steps that repeat (70_reset_and_hazards.md R245) -/

theorem core_run_of_step_self (h : step s = .next s) (n : Nat) : Sys2Proof.core.run n s = .next s := by
  induction n with
  | zero => rfl
  | succ n ih =>
    have hstep : Sys2Proof.core.step s = .next s := h
    simp only [Host.Core.run, hstep, ih]

/-- Settles O50: both steps leave the state as it was, for the instruction puts back the PC that the fetch moved on. -/
theorem keyWaitAndSelfJumpRepeatForever : Obligations.KeyWaitAndSelfJumpRepeatForever := by
  refine fun s n hs => ⟨fun x hi hnone => core_run_of_step_self ?_ n, fun hi => core_run_of_step_self ?_ n⟩
  · have hx := execFx0A_of_no_key (s := s.setPc (s.pc + 2)) (x := x) hnone
    exact (step_of_runsNext hs hi).trans (hx.trans (congrArg _ (State.setPc_add_two_sub_two s)))
  · exact step_of_runsNext hs hi

end Sys2Proof.Machine

/-! Control, the random byte and the index register, continued (40_control.md, 41_alu.md, 42_index_memory.md). -/

namespace Sys2Proof.Machine

variable {s t : State}

/-- Settles O15: the call leaves the post-fetch PC on top of the stack (`exec2nnn_eq_next`), and the return takes it from there
(`exec00EE_of_stack`). -/
theorem callThenReturnResumesAfterCall : Obligations.CallThenReturnResumesAfterCall := by
  intro nnn s t u hcall hstack
  obtain ⟨-, rfl⟩ := exec2nnn_eq_next.mp hcall
  exact ⟨_, exec00EE_of_stack hstack, rfl, rfl⟩

/-- A sum of a byte and an address of 12 bits fits PC and I. -/
theorem toNat_ofNat_byte_add {nnn : Nat} (b : Byte) (h : nnn < 4096) :
    (BitVec.ofNat 16 (b.toNat + (BitVec.ofNat 16 nnn).toNat)).toNat = b.toNat + nnn := by
  have hb := b.isLt
  rw [toNat_ofNat_of_lt_4096 h, BitVec.toNat_ofNat, Nat.mod_eq_of_lt (by omega)]

/-- Settles O18: PC holds the exact sum (`toNat_ofNat_byte_add`), and a fetch from 4095 or above is the next tick's error
(`transact_tick_of_pc_outside`). -/
theorem computedJumpAddsV0 : Obligations.ComputedJumpAddsV0 := by
  refine fun nnn s hn => ⟨isOpcodeOf_formatA (o := 0xB) (by decide) hn decide_eq_true rfl, ?_⟩
  have hsum := toNat_ofNat_byte_add (s.reg 0) hn
  refine ⟨_, rfl, hsum, setPc_changesOnly s _, fun hout => ?_⟩
  rw [transact_tick_of_pc_outside (hsum.symm ▸ hout : 4095 ≤ _), State.setPc_pc, hsum]

/-! ### The random byte (R132) -/

/-- A listed draw is the one that is drawn. -/
theorem State.random8_of_draws {d : Byte} {rest : List Byte} (h : s.draws = d :: rest) : s.random8 = d := by
  rw [State.random8, h, List.headD_cons]

/-- Settles O25: Cxkk draws, then writes one register. A given byte is drawn where it is listed first, and the list is part of the
random source (`rng_changesOnly`). -/
theorem randomByteIsMaskedAndFree : Obligations.RandomByteIsMaskedAndFree := by
  refine fun x kk s => ⟨isOpcodeOf_formatXK (o := 0xC) x kk (by decide) rfl rfl, ?drawn, fun r => ?free⟩
  case drawn =>
    refine ⟨_, s.random8, rfl, State.setReg_reg_self s.drawn x _, fun d rest hd => ⟨State.random8_of_draws hd, ?_⟩, ?_⟩
    · rw [State.setReg_draws, State.drawn_draws, hd, List.tail_cons]
    · exact changesOnly_mono (fun _ => Or.symm) (changesOnly_trans (rng_changesOnly s _ _) (setReg_changesOnly s.drawn x _))
  case free =>
    exact ⟨{ s with draws := r :: s.draws }, _, rng_changesOnly s (r :: s.draws) s.drawCount, rfl,
      State.setReg_reg_self _ x _⟩

/-! ### The index register and memory -/

/-- Settles O27: `5 * 255` fits I, the one register written. -/
theorem glyphAddressIsFiveTimesVx : Obligations.GlyphAddressIsFiveTimesVx := by
  refine fun x s => ⟨isOpcodeOf_misc x 0x29 rfl rfl, _, rfl, ?_, setI_changesOnly s _⟩
  have hv := (s.reg x).isLt
  rw [State.setI_i, BitVec.toNat_ofNat, Nat.mod_eq_of_lt (by omega)]

/-- What Fx55 stores is read back at the address of each register. -/
theorem setBytes_firstRegs_byteAt (s : State) (a : Nat) {x k : RegIdx} (hk : k ≤ x) :
    (s.setBytes a (s.firstRegs x)).byteAt (a + k.val) = s.reg k :=
  (State.setBytes_byteAt_add s a (by rw [State.firstRegs_length]; exact Nat.lt_succ_of_le hk)).trans
    (State.firstRegs_getElem s x k hk)

/-- Settles O29: inside memory the registers are the bytes of the span written (`setBytes_firstRegs_byteAt`), and nothing else
changes (`setBytes_changesOnly`); outside, the check of the span is the tick's error. -/
theorem registersAreStoredFromI : Obligations.RegistersAreStoredFromI := by
  refine fun x s => ⟨isOpcodeOf_misc x 0x55 rfl rfl, fun hin => ?inside, fun hi hout => ?outside⟩
  case inside =>
    refine ⟨s.setBytes s.i.toNat (s.firstRegs x), checkSpan_pos (.inr hin), fun k => setBytes_firstRegs_byteAt s _, ?_⟩
    refine changesOnly_mono ?_ (setBytes_changesOnly s s.i.toNat (s.firstRegs x))
    rintro p ⟨k, hk, rfl⟩
    rw [State.firstRegs_length] at hk
    exact ⟨k, Nat.le_of_lt_succ hk, rfl⟩
  case outside => exact transact_tick_of_checkSpan_outside hi rfl x.val.succ_pos (Nat.lt_succ_of_le hout)

/-- Settles O31: Fx55 leaves I alone, so Fx65 checks the same span, and reads the bytes stored (`setBytes_firstRegs_byteAt`). -/
theorem storedRegistersLoadBack : Obligations.StoredRegistersLoadBack := by
  intro x s t v h
  obtain ⟨hspan, h⟩ := checkSpan_eq_next.mp h
  cases h
  refine ⟨_, checkSpan_pos (by simpa using hspan), fun k => ⟨fun hk => ?_, fun hk => ?_⟩⟩
  · simp only [State.setRegs_reg, State.regsFromMemory_getElem, if_pos hk, State.setRegs_i, State.setBytes_i,
      State.setRegs_byteAt]
    exact setBytes_firstRegs_byteAt s _ hk
  · rw [State.setRegs_reg, State.regsFromMemory_getElem, if_neg (not_le.mpr hk), State.setRegs_reg]

/-- A byte written inside memory is what a fetch of its address reads (20_memory.md R63). -/
theorem fetchReads_setBytes (s : State) {a k : Nat} {bs : List Byte} (hspan : spanInMemory a bs.length)
    (hk : k < bs.length) : FetchReads (s.setBytes a bs) (a + k) bs[k].toNat := by
  rw [← State.setBytes_byteAt_add s a hk]
  simp only [spanInMemory] at hspan
  exact fetchReads_byteAt _ (by omega)

/-- Settles O32: each of the three writes a span inside memory, and every byte of such a span is fetched
(`fetchReads_setBytes`). -/
theorem writtenBytesAreFetched : Obligations.WrittenBytesAreFetched := by
  refine ⟨fun x k s t h hk => ?registers, fun x s t h => ?digits, fun rom s t r j h hj => ?rom⟩
  case registers =>
    obtain ⟨hspan, h⟩ := checkSpan_eq_next.mp h
    cases h
    rw [← State.firstRegs_getElem s x k hk]
    exact fetchReads_setBytes s (by rwa [State.firstRegs_length]) _
  case digits =>
    obtain ⟨hspan, h⟩ := checkSpan_eq_next.mp h
    cases h
    have hv := (s.reg x).isLt
    have hdigit (k : Nat) (hk : k < 3) := fetchReads_setBytes s (bs := decimalDigits (s.reg x)) hspan hk
    refine ⟨?_, ?_, ?_⟩
    · rw [← toNat_ofNat_of_lt_256 (show (s.reg x).toNat / 100 < 256 by omega)]
      exact hdigit 0 (by decide)
    · rw [← toNat_ofNat_of_lt_256 (show (s.reg x).toNat / 10 % 10 < 256 by omega)]
      exact hdigit 1 (by decide)
    · rw [← toNat_ofNat_of_lt_256 (show (s.reg x).toNat % 10 < 256 by omega)]
      exact hdigit 2 (by decide)
  case rom =>
    obtain ⟨hlen, h⟩ := check_eq_next.mp h
    cases h
    exact fetchReads_setBytes s (by simp only [spanInMemory]; omega) hj

/-! ### The canonical form of memory (notes/assumptions/10.md) -/

namespace Memory
variable {font : Font} {m m' : Memory} {a : Nat} {b : Byte} {c : Host.Cell}

theorem mem_of_find_eq_some (h : Memory.find m a = some b) : (a, b) ∈ m := by
  induction m with
  | nil => cases h
  | cons d m ih =>
    unfold Memory.find at h
    split at h
    next hd =>
      cases h
      exact hd ▸ List.mem_cons_self
    next => exact List.mem_cons_of_mem d (ih h)

/-- In a list of rising addresses an entry is the first one of its address. -/
theorem find_eq_some_of_mem (hm : m.Pairwise fun c d => c.1 < d.1) (h : c ∈ m) : Memory.find m c.1 = some c.2 := by
  induction m with
  | nil => cases h
  | cons d m ih =>
    obtain ⟨hd, hm⟩ := List.pairwise_cons.mp hm
    rw [Memory.find]
    obtain rfl | h := List.mem_cons.mp h
    · rw [if_pos rfl]
    · rw [if_neg (hd c h).ne, ih hm h]

/-- The entries of a memory in canonical form are what it reads other than blank. -/
theorem mem_iff_read (hm : m.wf font) :
    c ∈ m ↔ Memory.read font m c.1 = c.2 ∧ c.2 ≠ Memory.blank font c.1 := by
  constructor
  · intro h
    exact ⟨by rw [Memory.read, find_eq_some_of_mem hm.1 h, Option.getD_some], (hm.2 c h).2⟩
  · rintro ⟨hread, hne⟩
    apply mem_of_find_eq_some
    cases hf : Memory.find m c.1 with
    | none => exact absurd (by rw [← hread, Memory.read, hf, Option.getD_none]) hne
    | some b => rw [← hread, Memory.read, hf, Option.getD_some]

end Memory

/-- Settles O33: the two have the same entries (`Memory.mem_iff_read`), and a list in rising order is determined by its entries. -/
theorem canonicalMemoriesReadingAlikeAreEqual : Obligations.CanonicalMemoriesReadingAlikeAreEqual := by
  intro font m m' hm hm' hread
  have : Std.Irrefl fun c d : Host.Cell => c.1 < d.1 := ⟨fun c => lt_irrefl c.1⟩
  have : Std.Antisymm fun c d : Host.Cell => c.1 < d.1 := ⟨fun _ _ h h' => absurd h' h.asymm⟩
  refine hm.1.eq_of_mem_iff hm'.1 fun c => ?_
  rw [Memory.mem_iff_read hm, Memory.mem_iff_read hm', hread]

end Sys2Proof.Machine

/-! The framebuffer and the keypad, continued (43_display.md R173, 44_keypad_timers.md R185, R186). A first draw at registers other
than VF changes nothing that says which pixels the sprite covers. -/

namespace Sys2Proof.Machine

variable {s t : State} {x y : RegIdx} {n : Nat}

/-- The pixels that a sprite covers depend on I, the two registers and memory alone. -/
theorem spriteCovers_congr {c : Fin 64} {r : Fin 32} (hi : t.i = s.i) (hx : t.reg x = s.reg x) (hy : t.reg y = s.reg y)
    (hbyte : ∀ a, t.byteAt a = s.byteAt a) : SpriteCovers t x y n c r ↔ SpriteCovers s x y n c r := by
  simp only [SpriteCovers, hi, hx, hy, hbyte]

/-- A sprite drawn again over its own drawing gives the first framebuffer back. -/
theorem drawSprite_again (hn : n < 16) (hcover : ∀ c r, SpriteCovers t x y n c r ↔ SpriteCovers s x y n c r)
    (hfb : t.fb = (s.drawSprite x y n).1) : (t.drawSprite x y n).1 = s.fb := by
  refine Framebuffer.ext_pixel fun c r => ?_
  by_cases h : SpriteCovers s x y n c r
  · rw [State.drawSprite_pixel_of_covers hn ((hcover c r).mpr h), hfb, State.drawSprite_pixel_of_covers hn h, Bool.not_not]
  · rw [State.drawSprite_pixel_of_not_covers hn (mt (hcover c r).mp h), hfb, State.drawSprite_pixel_of_not_covers hn h]

/-- Settles O36: the second draw covers the same pixels (`spriteCovers_congr`), each toggled by the first, so it restores them
(`drawSprite_again`) and collides exactly where one was off before both. -/
theorem redrawRestoresFramebuffer : Obligations.RedrawRestoresFramebuffer := by
  intro x y n s t hn hx hy h
  obtain ⟨hspan, h⟩ := checkSpan_eq_next.mp h
  cases h
  set t := (s.setFb (s.drawSprite x y n).1).setFlag (s.drawSprite x y n).2 with ht
  have hreg (k : RegIdx) (hk : k ≠ 15) : t.reg k = s.reg k := by rw [ht, State.setFlag_reg, if_neg hk, State.setFb_reg]
  have hcover (c : Fin 64) (r : Fin 32) : SpriteCovers t x y n c r ↔ SpriteCovers s x y n c r :=
    spriteCovers_congr rfl (hreg x hx) (hreg y hy) fun _ => rfl
  have htoggled (c : Fin 64) (r : Fin 32) (hc : SpriteCovers s x y n c r) : t.fb.pixel c r = !s.fb.pixel c r :=
    State.drawSprite_pixel_of_covers hn hc
  refine ⟨_, (execDxyn_eq_checkSpan x y n t).trans (checkSpan_pos hspan), drawSprite_again hn hcover rfl, ?collision,
    fun hset => ?noCollision⟩
  case collision =>
    rintro ⟨c, r, hc, hoff⟩
    have hon : t.fb.pixel c r = true := by rw [htoggled c r hc, hoff, Bool.not_false]
    rw [State.setFlag_reg, if_pos rfl, (State.drawSprite_collision hn).mpr ⟨c, r, (hcover c r).mpr hc, hon⟩, flagByte,
      if_pos rfl]
  case noCollision =>
    have hoff (c : Fin 64) (r : Fin 32) (hc : SpriteCovers t x y n c r) : t.fb.pixel c r = false := by
      have hc := (hcover c r).mp hc
      rw [htoggled c r hc, hset c r hc, Bool.not_true]
    rw [State.setFlag_reg, if_pos rfl, State.drawSprite_no_collision hn hoff, flagByte, if_neg Bool.false_ne_true]

/-- An instruction whose byte is a minor opcode has the opcode of the two, and its register (30_encoding.md R73, R75). -/
theorem isOpcodeOf_formatX {o : Nat} {i : Instr} (x : RegIdx) (kk : Byte) (ho : o < 16) (hi : i.wellFormed = true)
    (he : encode i = formatXK o x kk) : IsOpcodeOf (0x1000 * o + kk.toNat + 0x100 * x.val) i := by
  rw [Nat.add_right_comm]
  exact isOpcodeOf_formatXK x kk ho hi he

/-- The skips on the key numbered Vx, inside the keypad. -/
theorem andThen_keyOperand_of_eq {k : Fin 16} (hk : (s.reg x).toNat = k.val) (c : Fin 16 → Bool) :
    (andThen (s.keyOperand x) fun j => skipIf (c j) s) = skipIf (c k) s := by
  rw [State.keyOperand, keyIndex_eq_next.mpr hk, andThen_next]

/-- Settles O37: inside the keypad both are a skip (`skipIf_completes`) on the key; outside it the index is the error of either
(`keySkip_eq_fault`). -/
theorem keySkipsTestKeyVx : Obligations.KeySkipsTestKeyVx := by
  refine fun x s => ⟨isOpcodeOf_formatX (o := 0xE) x 0x9E (by decide) rfl rfl,
    isOpcodeOf_formatX (o := 0xE) x 0xA1 (by decide) rfl rfl, fun k hk => ⟨?skip, ?skipNot⟩, fun hi hge => ?outside⟩
  case skip =>
    obtain ⟨t, ht, hskip⟩ := skipIf_completes (s := s) (P := s.key k = true) (Q := s.key k = false) id id
    exact ⟨t, (andThen_keyOperand_of_eq hk _).trans ht, hskip⟩
  case skipNot =>
    obtain ⟨t, ht, hskip⟩ := skipIf_completes (s := s) (c := !s.key k) (P := s.key k = false) (Q := s.key k = true)
      (by simp) (by simp)
    exact ⟨t, (andThen_keyOperand_of_eq hk _).trans ht, hskip⟩
  case outside =>
    obtain hi | hi := hi <;> exact transact_tick_of_exec_fault hi (keySkip_eq_fault.mpr ⟨hge, rfl⟩)

end Sys2Proof.Machine

/-! The sound timer and the instructions (10_state.md R29): every instruction commutes with setting ST, errors included, but Fx18,
which overwrites it. -/

namespace Sys2Proof.Machine

variable {s : State} {i : Instr} {b : Byte}

@[simp] theorem State.setSt_bytesAt (s : State) (b : Byte) (a len : Nat) : (s.setSt b).bytesAt a len = s.bytesAt a len := by
  induction len generalizing a with
  | zero => rfl
  | succ len ih => simp [State.bytesAt, ih]

theorem State.setSt_setBytes (s : State) (b : Byte) (a : Nat) (bs : List Byte) :
    (s.setSt b).setBytes a bs = (s.setBytes a bs).setSt b := by
  induction bs generalizing s a with
  | nil => rfl
  | cons c bs ih => exact ih (s.setByte a c) (a + 1)

theorem skipIf_setSt (c : Bool) : skipIf c (s.setSt b) = andThen (skipIf c s) fun t => .next (t.setSt b) := by
  cases c <;> rfl

/-- The skips on a key named by an operand. -/
theorem andThen_skipIf_setSt (o : Host.Outcome (Fin 16) Fault Refusal) (c : Fin 16 → Bool) :
    (andThen o fun k => skipIf (c k) (s.setSt b)) =
      andThen (andThen o fun k => skipIf (c k) s) fun t => .next (t.setSt b) := by
  cases o with
  | next k => exact skipIf_setSt (c k)
  | fault | refused => rfl

/-- An instruction other than Fx18 does the same whatever ST is, and leaves it. -/
theorem exec_setSt (hi : ∀ x, i ≠ .opFx18 x) :
    exec i (s.setSt b) = andThen (exec i s) fun t => .next (t.setSt b) := by
  cases i with
  | opFx18 x => exact absurd rfl (hi x)
  | op3xkk | op4xkk | op5xy0 | op9xy0 => exact skipIf_setSt _
  | opEx9E x | opExA1 x => exact andThen_skipIf_setSt (s.keyOperand x) _
  | op00EE =>
    show exec00EE (s.setSt b) = andThen (exec00EE s) _
    unfold exec00EE pop
    rw [State.setSt_stack]
    split <;> rfl
  | op2nnn =>
    simp only [exec, exec2nnn, push, andThen_check]
    rfl
  | opDxyn | opFx33 | opFx55 | opFx65 =>
    simp only [exec, execDxyn, execFx33, execFx55, execFx65, andThen_checkSpan, State.setSt_bytesAt, State.setSt_setBytes]
    rfl
  | opFx0A x =>
    show execFx0A x (s.setSt b) = andThen (execFx0A x s) _
    unfold execFx0A
    rw [show (s.setSt b).lowestKey = s.lowestKey from rfl]
    split <;> rfl
  -- The others answer `.next` of an update of another field, computed without ST.
  | _ => rfl

/-- Settles O48: an instruction other than Fx18 commutes with setting ST (`exec_setSt`), and after Fx18 the two states are the
same. -/
theorem noInstructionReadsSoundTimer : Obligations.NoInstructionReadsSoundTimer := by
  intro i s b
  by_cases hi : ∃ x, i = .opFx18 x
  · obtain ⟨x, rfl⟩ := hi
    refine ⟨fun t h => ?_, nofun⟩
    cases h
    exact ⟨_, rfl, setSt_changesOnly _ (s.reg x)⟩
  · push Not at hi
    refine ⟨fun t h => ⟨t.setSt b, ?_, setSt_changesOnly t b⟩, fun e h => ?_⟩
    · rw [exec_setSt hi, h, andThen_next]
    · rw [exec_setSt hi, h, andThen_fault, raise]

end Sys2Proof.Machine

/-! The host's commands `load` and `reset` (20_memory.md R57, 70_reset_and_hazards.md R240). -/

namespace Sys2Proof.Machine

/-- Settles O40: a ROM that fits is a span of bytes written (`State.setBytes_byteAt_add`, `setBytes_changesOnly`); one that does
not is the check's error. -/
theorem loadCopiesRom : Obligations.LoadCopiesRom := by
  refine fun rom s => ⟨fun hfits => ?fits, fun hlong => ?long⟩
  case fits =>
    exact ⟨s.setBytes 0x200 rom, check_pos hfits, fun j hj => State.setBytes_byteAt_add s 0x200 hj,
      setBytes_changesOnly s 0x200 rom⟩
  case long => exact transact_of_serve_fault (check_neg (Nat.not_le.mpr hlong))

/-- Settles O41: `reset` gives the state of construction, whose memory lists nothing. -/
theorem resetGivesStatedValues : Obligations.ResetGivesStatedValues := by
  intro s
  refine ⟨_, rfl, rfl, State.construct_reg _ _ _ _, rfl, rfl, rfl, rfl, rfl, fun a ha => ?font, fun a ha _ => ?blank,
    Framebuffer.clear_pixel, State.construct_key _ _ _ _, ?frame⟩
  case font => exact dif_pos ha
  case blank => exact dif_neg (Nat.not_lt.mpr ha)
  case frame =>
    intro p hp
    cases p with
    | font | schedule => rfl
    | rng => exact ⟨rfl, rfl⟩
    | reg | pc | index | stack | delay | sound | byte | pixel | key => exact absurd (by simp) hp

end Sys2Proof.Machine
